-- ==== Sys2Proof/Word.lean ====
section
/-! DEFINITION. The words of KWZDEC: bytes of the source, output samples and 32-bit registers (R10, R42, R60, R67). -/

namespace Sys2Proof

/-- A `u8`: a byte of the source memory, an opcode, a fault code. -/
abbrev Byte := BitVec 8

/-- A `u16`: an output sample (R67). -/
abbrev Half := BitVec 16

/-- A `u32`: a register of the map (R42), a source address (R60), a command word (R97). -/
abbrev Word := BitVec 32

end Sys2Proof
end

