-- ==== Sys2Proof/Syntax.lean ====
section
/-! DEFINITION. The instructions of KWZDEC (R2, R98): one constructor for each of the 31 rows of the opcode table, and the
names of the host's register map (R42). -/

namespace Sys2Proof

/-- An instruction: one of the 20 sample codes (R91, R92) or of the 11 commands (R97). A command carries the operands it
uses as the unsigned numbers of their fields; the operand bits it does not use are ignored on execution (R97) and are no
part of it. -/
inductive Instr where
  /-- `S2.0`, code `0b00` (R170). -/
  | s2_0
  /-- `S2.1`, code `0b01` (R171). -/
  | s2_1
  /-- `S2.2`, code `0b10` (R172). -/
  | s2_2
  /-- `S2.3`, code `0b11` (R173). -/
  | s2_3
  /-- `S4.0` (R174). -/
  | s4_0
  /-- `S4.1` (R175). -/
  | s4_1
  /-- `S4.2` (R176). -/
  | s4_2
  /-- `S4.3` (R177). -/
  | s4_3
  /-- `S4.4` (R178). -/
  | s4_4
  /-- `S4.5` (R179). -/
  | s4_5
  /-- `S4.6` (R180). -/
  | s4_6
  /-- `S4.7` (R181). -/
  | s4_7
  /-- `S4.8` (R182). -/
  | s4_8
  /-- `S4.9` (R183). -/
  | s4_9
  /-- `S4.A` (R184). -/
  | s4_a
  /-- `S4.B` (R185). -/
  | s4_b
  /-- `S4.C` (R186). -/
  | s4_c
  /-- `S4.D` (R187). -/
  | s4_d
  /-- `S4.E` (R188). -/
  | s4_e
  /-- `S4.F` (R189). -/
  | s4_f
  /-- `NOP` (R233). -/
  | nop
  /-- `ADU_START k, s0`: `k = A[7:0]` the track index, `s0 = A[15:8]` the initial step index (R234). -/
  | aduStart (k s0 : Nat)
  /-- `BCU_INIT`; the start address is register `ARG` (R141). -/
  | bcuInit
  /-- `BCU_READ n`: `n = A[7:0]` the bit count (R142). -/
  | bcuRead (n : Nat)
  /-- `LTU_T1 i`: `i = A[15:0]` (R132). -/
  | ltuT1 (i : Nat)
  /-- `LTU_T2 i` (R133). -/
  | ltuT2 (i : Nat)
  /-- `LTU_T3 i` (R134). -/
  | ltuT3 (i : Nat)
  /-- `LTU_LINE i` (R135). -/
  | ltuLine (i : Nat)
  /-- `LDU_DECODE` (R221). -/
  | lduDecode
  /-- `CLR_ERR` (R235). -/
  | clrErr
  /-- `SOFT_RESET` (R236). -/
  | softReset
  deriving DecidableEq, Repr

/-- An encoded instruction, in the format that carries it: a 2-bit code (R91), a 4-bit code (R92) or a command word
(R97). -/
inductive Encoding where
  | s2 (c : BitVec 2)
  | s4 (c : BitVec 4)
  | cw (w : Word)
  deriving DecidableEq, Repr

/-! ### The register map (R42): indices of the host's registers -/

namespace Reg

abbrev cmd : Nat := 0
abbrev arg : Nat := 1
abbrev status : Nat := 2
abbrev err : Nat := 3
abbrev errInfo : Nat := 4
abbrev result : Nat := 5
abbrev resultHi : Nat := 6
abbrev srcSize : Nat := 7
/-- `TRK_BASE[k]`, indices 8 to 12. -/
abbrev trkBase (k : Nat) : Nat := 8 + k
/-- `TRK_LEN[k]`, indices 13 to 17. -/
abbrev trkLen (k : Nat) : Nat := 13 + k
abbrev aduPredLo : Nat := 18
abbrev aduPredHi : Nat := 19
abbrev aduSidx : Nat := 20
abbrev aduDiff : Nat := 21
abbrev aduBptr : Nat := 22
abbrev aduBits : Nat := 23
abbrev aduNoutLo : Nat := 24
abbrev aduNoutHi : Nat := 25
abbrev bcuVal : Nat := 26
abbrev bcuIdx : Nat := 27
abbrev bcuWp : Nat := 28

end Reg

end Sys2Proof
end

