-- ==== Sys2Proof/WellFormed.lean ====
section
/-! DEFINITION. When an instruction term stands for an encoding: every operand fits the field that carries it (R97). -/

namespace Sys2Proof

/-- The operands fit their fields: `k`, `s0` and `n` have 8 bits, a table index has 16 (R97). The fields are wider than
the legal ranges on purpose; an operand outside its legal range is well formed and is answered by a fault. -/
def Instr.WellFormed : Instr → Bool
  | .s2_0 | .s2_1 | .s2_2 | .s2_3 => true
  | .s4_0 | .s4_1 | .s4_2 | .s4_3 | .s4_4 | .s4_5 | .s4_6 | .s4_7 => true
  | .s4_8 | .s4_9 | .s4_a | .s4_b | .s4_c | .s4_d | .s4_e | .s4_f => true
  | .nop | .bcuInit | .lduDecode | .clrErr | .softReset => true
  | .aduStart k s0 => decide (k < 256) && decide (s0 < 256)
  | .bcuRead n => decide (n < 256)
  | .ltuT1 i | .ltuT2 i | .ltuT3 i | .ltuLine i => decide (i < 65536)

end Sys2Proof
end

