-- ==== Sys2Proof/Decode.lean ====
section
/-! DEFINITION. Decoding and encoding: sample codes (R91, R92), command words (R97), the opcode map (R98). -/

namespace Sys2Proof

/-- Why an encoding stands for no instruction: the command word's opcode is reserved (R100). -/
inductive DecodeError where
  | reservedOpcode (w : Word)
  deriving DecidableEq, Repr

/-- Bits `lo + len - 1` down to `lo` of a command word, as an unsigned number (R9). -/
def field (w : Word) (lo len : Nat) : Nat := (w.extractLsb' lo len).toNat

/-- `OPC = W[31:24]` (R97). -/
def opcodeOf (w : Word) : Byte := w.extractLsb' 24 8

/-- The instruction of a 2-bit code, by its bits `SG`, `M0` (R91): all four values are defined (R99). -/
def decodeS2 (c : BitVec 2) : Instr :=
  match c.getLsbD 1, c.getLsbD 0 with
  | false, false => .s2_0
  | false, true => .s2_1
  | true, false => .s2_2
  | true, true => .s2_3

/-- The instruction of a 4-bit code, by its bits `SG`, `M2`, `M1`, `M0` (R92): all sixteen values are defined (R99). -/
def decodeS4 (c : BitVec 4) : Instr :=
  match c.getLsbD 3, c.getLsbD 2, c.getLsbD 1, c.getLsbD 0 with
  | false, false, false, false => .s4_0
  | false, false, false, true => .s4_1
  | false, false, true, false => .s4_2
  | false, false, true, true => .s4_3
  | false, true, false, false => .s4_4
  | false, true, false, true => .s4_5
  | false, true, true, false => .s4_6
  | false, true, true, true => .s4_7
  | true, false, false, false => .s4_8
  | true, false, false, true => .s4_9
  | true, false, true, false => .s4_a
  | true, false, true, true => .s4_b
  | true, true, false, false => .s4_c
  | true, true, false, true => .s4_d
  | true, true, true, false => .s4_e
  | true, true, true, true => .s4_f

/-- The command of a command word (R97). Opcodes `0x0B` to `0xFF` are reserved (R100); operand bits a command does not use
are ignored. -/
def decodeCommand (w : Word) : Except DecodeError Instr :=
  match (opcodeOf w).toNat with
  | 0x00 => .ok .nop
  | 0x01 => .ok (.aduStart (field w 0 8) (field w 8 8))
  | 0x02 => .ok .bcuInit
  | 0x03 => .ok (.bcuRead (field w 0 8))
  | 0x04 => .ok (.ltuT1 (field w 0 16))
  | 0x05 => .ok (.ltuT2 (field w 0 16))
  | 0x06 => .ok (.ltuT3 (field w 0 16))
  | 0x07 => .ok (.ltuLine (field w 0 16))
  | 0x08 => .ok .lduDecode
  | 0x09 => .ok .clrErr
  | 0x0A => .ok .softReset
  | _ => .error (.reservedOpcode w)

/-- The decoder: total, rejecting a reserved opcode by name. -/
def decode : Encoding → Except DecodeError Instr
  | .s2 c => .ok (decodeS2 c)
  | .s4 c => .ok (decodeS4 c)
  | .cw w => decodeCommand w

/-- The command word `(OPC << 24) | A` (R101), from the opcode and the three bytes of `A`, the highest first. -/
def commandWord (opc : Nat) (a2 a1 a0 : Nat) : Word :=
  BitVec.ofNat 8 opc ++ (BitVec.ofNat 8 a2 ++ (BitVec.ofNat 8 a1 ++ BitVec.ofNat 8 a0))

/-- The command word of a table lookup: `A[15:0] = i` (R97). -/
def lookupWord (opc i : Nat) : Word := commandWord opc 0 (i / 256) i

/-- The encoder (R91, R92, R97): unused operand bits are 0 (R101). -/
def encode : Instr → Encoding
  | .s2_0 => .s2 0b00#2
  | .s2_1 => .s2 0b01#2
  | .s2_2 => .s2 0b10#2
  | .s2_3 => .s2 0b11#2
  | .s4_0 => .s4 0x0#4
  | .s4_1 => .s4 0x1#4
  | .s4_2 => .s4 0x2#4
  | .s4_3 => .s4 0x3#4
  | .s4_4 => .s4 0x4#4
  | .s4_5 => .s4 0x5#4
  | .s4_6 => .s4 0x6#4
  | .s4_7 => .s4 0x7#4
  | .s4_8 => .s4 0x8#4
  | .s4_9 => .s4 0x9#4
  | .s4_a => .s4 0xA#4
  | .s4_b => .s4 0xB#4
  | .s4_c => .s4 0xC#4
  | .s4_d => .s4 0xD#4
  | .s4_e => .s4 0xE#4
  | .s4_f => .s4 0xF#4
  | .nop => .cw (commandWord 0x00 0 0 0)
  | .aduStart k s0 => .cw (commandWord 0x01 0 s0 k)
  | .bcuInit => .cw (commandWord 0x02 0 0 0)
  | .bcuRead n => .cw (commandWord 0x03 0 0 n)
  | .ltuT1 i => .cw (lookupWord 0x04 i)
  | .ltuT2 i => .cw (lookupWord 0x05 i)
  | .ltuT3 i => .cw (lookupWord 0x06 i)
  | .ltuLine i => .cw (lookupWord 0x07 i)
  | .lduDecode => .cw (commandWord 0x08 0 0 0)
  | .clrErr => .cw (commandWord 0x09 0 0 0)
  | .softReset => .cw (commandWord 0x0A 0 0 0)

/-- The encoding that `w`, an opcode-table row's bits in `nbits` bits, stands for: a 2-bit code, a 4-bit code or a command
word. Rounded up to a whole byte the two code formats have the same number of bits and their low four words coincide; the
spec tells them apart by the state only (R93), so a byte below 4 is read as format `S2`, the format the state after reset
selects, and one from 4 to 15 as `S4` (log entry 12). -/
def tableEncoding (nbits w : Nat) : Option Encoding :=
  if nbits ≤ 2 then some (.s2 (BitVec.ofNat 2 w))
  else if nbits ≤ 4 then some (.s4 (BitVec.ofNat 4 w))
  else if nbits ≤ 8 then
    if w < 4 then some (.s2 (BitVec.ofNat 2 w))
    else if w < 16 then some (.s4 (BitVec.ofNat 4 w))
    else none
  else some (.cw (BitVec.ofNat 32 w))

/-- The instruction the decoder reads from an opcode-table row's bits. -/
def decodeTableWord (nbits w : Nat) : Option Instr :=
  (tableEncoding nbits w).bind fun e => (decode e).toOption

end Sys2Proof
end

