-- ==== Sys2Proof/Config.lean ====
section
/-! DEFINITION. What the spec fixes once (R7), the parameters it leaves open (R8) and the free values of the model. -/

namespace Sys2Proof.Config

/-! ### The constants of R7 -/

/-- `N_TRACKS`: track slots 0 to 4. -/
abbrev nTracks : Nat := 5

/-- `STEP_TABLE_LEN`: entries of `STEP_TABLE` (R44). -/
abbrev stepTableLen : Nat := 89

/-- `SIDX_MAX`: the greatest step index (R22); the least is 0. -/
abbrev sidxMax : Nat := 79

/-- `MODE_THRESHOLD`: below this step index every code has 2 bits (R93). -/
abbrev modeThreshold : Nat := 18

/-- `BITPOS_LIMIT`: above this in-byte position every code has 2 bits (R93). -/
abbrev bitposLimit : Nat := 4

/-- `DIFF_MIN`. -/
abbrev diffMin : Int := -2048

/-- `DIFF_MAX`. -/
abbrev diffMax : Int := 2047

/-- `OUT_SCALE`. -/
abbrev outScale : Int := 16

/-- `IDX2`, the document's `INDEX_TABLE_2BIT` (R45). -/
def idx2 : List Int := [-1, 2, -1, 2]

/-- `T1_LEN` and `T2_LEN`. -/
abbrev shortTableLen : Nat := 32

/-- `T3_LEN` and `LINE_LEN`: `3^8` (R123, R124). -/
abbrev longTableLen : Nat := 6561

/-- `SAMPLE_RATE_HZ`: a label of the output that appears in no rule's semantics (R306). -/
abbrev sampleRateHz : Nat := 16364

/-! ### Reference contents: general knowledge, not claims of the source (G1, G2, G4, G5, G6)

They are the default values of `Tables` below, which shows that the constraints can be met, and what the tests run with. -/

/-- G1: the step table of the common IMA ADPCM codec. -/
def refStepTable : List Nat :=
  [7, 8, 9, 10, 11, 12, 13, 14, 16, 17,
   19, 21, 23, 25, 28, 31, 34, 37, 41, 45] ++
  [50, 55, 60, 66, 73, 80, 88, 97, 107, 118,
   130, 143, 157, 173, 190, 209, 230, 253, 279, 307] ++
  [337, 371, 408, 449, 494, 544, 598, 658, 724, 796,
   876, 963, 1060, 1166, 1282, 1411, 1552, 1707, 1878, 2066] ++
  [2272, 2499, 2749, 3024, 3327, 3660, 4026, 4428, 4871, 5358,
   5894, 6484, 7132, 7845, 8630, 9493, 10442, 11487, 12635, 13899] ++
  [15289, 16818, 18500, 20350, 22385, 24623, 27086, 29794, 32767]

/-- G2: the index adjustments of the common IMA ADPCM codec. -/
def refIdx4 : List Int := [-1, -1, -1, -1, 2, 4, 6, 8, -1, -1, -1, -1, 2, 4, 6, 8]

/-- G4 (R128). -/
def refT1 : List Nat :=
  [0x0000, 0x0CD0, 0x19A0, 0x02D9, 0x088B, 0x0051, 0x00F3, 0x0009,
   0x001B, 0x0001, 0x0003, 0x05B2, 0x1116, 0x00A2, 0x01E6, 0x0012] ++
  [0x0036, 0x0002, 0x0006, 0x0B64, 0x08DC, 0x0144, 0x00FC, 0x0024,
   0x001C, 0x0004, 0x0334, 0x099C, 0x0668, 0x1338, 0x1004, 0x166C]

/-- G5 (R129). -/
def refT2 : List Nat :=
  [0x0000, 0x0CD0, 0x19A0, 0x0003, 0x02D9, 0x088B, 0x0051, 0x00F3,
   0x0009, 0x001B, 0x0001, 0x0006, 0x05B2, 0x1116, 0x00A2, 0x01E6] ++
  [0x0012, 0x0036, 0x0002, 0x02DC, 0x0B64, 0x08DC, 0x0144, 0x00FC,
   0x0024, 0x001C, 0x099C, 0x0334, 0x1338, 0x0668, 0x166C, 0x1004]

/-- A weight list that meets R126. The spec has no reference value of `W3`; this one only shows that the constraint can
be met (log entry 3). -/
def exampleW3 : List Nat := [2187, 729, 243, 81, 27, 9, 3, 1]

/-- G6 (R127). -/
def refLinePerm : List Nat := [1, 0, 3, 2, 5, 4, 7, 6]

/-! ### The open tables -/

/-- The sum of products of weights and digits (R126). -/
def dot : List Nat → List Nat → Nat
  | w :: ws, d :: ds => w * d + dot ws ds
  | _, _ => 0

/-- "all values distinct" (R126): different lists of eight base-3 digits have different weighted sums. -/
def Injective3 (w : List Nat) : Prop :=
  ∀ d e : List Nat, d.length = 8 → e.length = 8 → (∀ x ∈ d, x < 3) → (∀ x ∈ e, x < 3) → dot w d = dot w e → d = e

theorem exampleW3_injective : Injective3 exampleW3 := by
  intro d e hd he hd3 he3 h
  match d, e, hd, he with
  | [a0, a1, a2, a3, a4, a5, a6, a7], [b0, b1, b2, b3, b4, b5, b6, b7], _, _ =>
    simp only [List.mem_cons, List.not_mem_nil, or_false, forall_eq_or_imp, forall_eq] at hd3 he3
    simp only [exampleW3, dot] at h
    have h7 : a7 = b7 := by omega
    have h6 : a6 = b6 := by omega
    have h5 : a5 = b5 := by omega
    have h4 : a4 = b4 := by omega
    have h3 : a3 = b3 := by omega
    have h2 : a2 = b2 := by omega
    have h1 : a1 = b1 := by omega
    have h0 : a0 = b0 := by omega
    simp [h0, h1, h2, h3, h4, h5, h6, h7]

/-- The tables R8 leaves open, each with the constraints the spec lets a model assume (R8, R44, R46, R121, R122, R126,
R127 and the table of open parameters of 92_eei_decisions.md), and nothing more. -/
structure Tables where
  /-- `STEP_TABLE` (R44). -/
  stepTable : List Nat := refStepTable
  stepTable_length : stepTable.length = stepTableLen := by decide
  stepTable_first : stepTable.head? = some 7 := by decide
  stepTable_last : stepTable.getLast? = some 32767 := by decide
  stepTable_ascending : stepTable.Pairwise (· < ·) := by decide
  /-- `IDX4` (R46). -/
  idx4 : List Int := refIdx4
  idx4_length : idx4.length = 16 := by decide
  idx4_values : ∀ v ∈ idx4, v ∈ [(-1 : Int), 2, 4, 6, 8] := by decide
  /-- `T1` (R121). -/
  t1 : List Nat := refT1
  t1_length : t1.length = shortTableLen := by decide
  t1_codes : ∀ v ∈ t1, v < longTableLen := by decide
  /-- `T2` (R122). -/
  t2 : List Nat := refT2
  t2_length : t2.length = shortTableLen := by decide
  t2_codes : ∀ v ∈ t2, v < longTableLen := by decide
  /-- `W3` (R126). -/
  w3 : List Nat := exampleW3
  w3_length : w3.length = 8 := by decide
  w3_injective : Injective3 w3 := by exact exampleW3_injective
  /-- `LINE_PERM` (R127): a permutation of the eight positions that maps each pair to itself. -/
  linePerm : List Nat := refLinePerm
  linePerm_length : linePerm.length = 8 := by decide
  linePerm_distinct : linePerm.Nodup := by decide
  linePerm_pairs : ∀ j, j < 8 → linePerm.getD j 8 / 2 = j / 2 := by decide
  deriving Inhabited

/-- The reference tables of 93_implementation_defined.md (with `exampleW3` for the weights, for which there is no
reference). What the tests run with; the machine runs with `tables`. -/
def reference : Tables := {}

/-- The machine's tables: ANY tables that meet the constraints (R8). No body: no proof can see an entry that the
constraints do not fix (log entry 1). -/
opaque tables : Tables

/-! ### Free values -/

/-- Which step boundary of the run a mirror read during a run shows (R41, U19): a number for the n-th such read, taken
modulo the number of boundaries there are. No body (log entry 4). -/
opaque mirrorPick : Nat → Nat

/-- What `RESULT` holds after `LTU_T3 i` if the entry `T3[i]` does not fit its 32 bits, which R126 leaves possible and no
rule speaks of. A function of the index. No body (log entry 3). -/
opaque unfitResult : Nat → Word

end Sys2Proof.Config
end

