-- ==== Sys2Proof/Machine/State.lean ====
section
/-! DEFINITION. The state of one KWZDEC instance (R20) and of what surrounds it (the host and its source memory), the
reasons a step can stop, and the state after reset (R52, R300). -/

namespace Sys2Proof.Machine

/-- `MODE` (R43). -/
inductive Mode where
  | idle
  | aduRun
  deriving DecidableEq, Repr

/-- The registers of the audio decode unit (R21 to R28). -/
structure Adu where
  /-- `PRED`, the unbounded predictor (R21). -/
  pred : Int
  /-- `SIDX`, the step index (R22). -/
  sidx : Nat
  /-- `DIFF`, the last clamped delta (R23). -/
  diff : Int
  /-- `CUR`, the bits of the current byte not yet consumed, right-aligned (R24). -/
  cur : Byte
  /-- `BITPOS`, the number of bits of the current byte already consumed (R25). -/
  bitpos : Nat
  /-- `BPTR`, the index of the current byte in the track (R26). -/
  bptr : Word
  /-- `NOUT`, the samples emitted in the current or last run (R27). -/
  nout : Nat
  /-- `ATRK`, the track of the last accepted `ADU_START` (R28). -/
  atrk : Fin 5
  deriving DecidableEq, Repr

/-- The registers of the bit cursor unit (R30 to R32). -/
structure Bcu where
  /-- `BVAL`, the bits fetched and not yet consumed (R30). -/
  bval : Word
  /-- `BIDX`, the consumed bits of the current 16-bit window (R31). -/
  bidx : Int
  /-- `BWP`, the address of the next 16-bit word (R32). -/
  bwp : Word
  deriving DecidableEq, Repr

/-- The `ERR` group (R37). -/
structure ErrGroup where
  /-- `ERR_CODE`; 0 is no fault. -/
  code : Byte
  /-- `ERR_OPC`, the opcode of the command that faulted. -/
  opc : Byte
  /-- `ERR_INFO`, the offending value. -/
  info : Word
  deriving DecidableEq, Repr

/-- The source memory `SRC` (R60) as the bytes the host has placed: (address, byte) pairs, addresses strictly rising, no
byte equal to what an unlisted address reads as. -/
structure Memory where
  cells : List Host.Cell
  deriving DecidableEq, Repr

/-- What the world outside does to the block: the host's register read and register write (R230), the host placing a byte
of the source (R60, R74), the reset input (R300), and one step in which it does nothing. -/
inductive HostAction where
  /-- `RD index`. -/
  | rd (index : Nat)
  /-- `WR index, value`; `WR CMD, w` (index 0) issues a command. -/
  | wr (index : Nat) (value : Word)
  /-- The host changes the source byte at an address. -/
  | srcPut (addr : Word) (byte : Byte)
  /-- The reset input. -/
  | hardReset
  /-- Nothing: the step is the block's own. -/
  | yield
  deriving DecidableEq, Repr

/-- The value one register read returned to the host (R232). -/
structure ReadReply where
  index : Nat
  value : Word
  deriving DecidableEq, Repr

/-- The whole state: the block's (R20), then the host's side of the interface, then what the model keeps for the values
the spec leaves open. -/
structure State where
  /-- The audio decode unit. -/
  adu : Adu
  /-- The bit cursor unit. -/
  bcu : Bcu
  /-- `MODE` (R43). -/
  mode : Mode
  /-- `ARG` (R35). -/
  arg : Word
  /-- `SRC_SIZE` (R39). -/
  srcSize : Word
  /-- `TRK_BASE[0..4]` (R40). -/
  trkBase : Vector Word 5
  /-- `TRK_LEN[0..4]` (R40). -/
  trkLen : Vector Word 5
  /-- `DONE` (R36). -/
  done : Bool
  /-- `EMPTY` (R36). -/
  empty : Bool
  /-- `ERR_CODE`, `ERR_OPC`, `ERR_INFO` (R37). -/
  err : ErrGroup
  /-- `RESULT` (R38). -/
  result : Word
  /-- `RESULT_HI` (R38). -/
  resultHi : Word
  /-- `OUT`, the samples emitted, oldest first (R51). -/
  out : List Half
  /-- `SRC`: the host's, an input of the steps that read it (R53, R60). -/
  src : Memory
  /-- What the world outside will do, in the order it will be performed (log entry 5). -/
  pending : List HostAction
  /-- What register reads have returned, oldest first (log entry 6). -/
  reads : List ReadReply
  /-- The model's own: the ADU registers at the earlier step boundaries of the current run, newest first (R41, log entry 4). -/
  history : List Adu
  /-- The model's own: how many mirror reads were made during runs, the argument of the free value of R41 (log entry 4). -/
  mirrorReads : Nat
  deriving DecidableEq, Repr

/-- The spec's faults, by name (R261). None is a stop: entry writes the `ERR` group (R273) and the block goes on. -/
inductive ErrKind where
  | invalidTrackIndex
  | invalidStepIndex
  | unexpectedEndOfStream
  | invalidBitCount
  | invalidTableIndex
  | illegalCommand
  | unimplemented
  deriving DecidableEq, Repr

/-- Why the machine stops with a fault. (The spec's own faults, `ErrKind`, are no stop.) Both are raised by sample codes only.
`step` executes a sample code in `ADU_RUN` only (R161, log entry 17), and there the invariant rules both out (log entry 9). -/
inductive Fault where
  /-- A sample step whose track byte lies outside the source: R162 derives that it cannot happen in a run. Safe: the model
  stops. -/
  | fetchPastSource
  /-- A sample step with a step index outside `STEP_TABLE`: R22 excludes it at every step boundary. Safe: the model
  stops. -/
  | stepIndexOutOfTable
  deriving DecidableEq, Repr

/-- Why the machine refuses to go on. -/
inductive Refusal where
  /-- An instruction without a meaning. No arm answers with it: every instruction is modelled. Safe. -/
  | notModelled (mnemonic : String)
  /-- The host changed a byte of the running track: R74 gives the model's host no such move. Raised by the host action
  `srcPut`, by no instruction. Safe: the model says nothing of what follows. -/
  | trackByteChangedDuringRun
  deriving DecidableEq, Repr

/-- The ADU registers after reset (R52). -/
def Adu.reset : Adu :=
  { pred := 0, sidx := 0, diff := 0, cur := 0, bitpos := 0, bptr := 0, nout := 0, atrk := 0 }

/-- The BCU registers after reset (R52): the empty window. -/
def Bcu.reset : Bcu := { bval := 0, bidx := 16, bwp := 0 }

/-- The `ERR` group after reset (R52) and after `CLR_ERR` (R235): no fault. -/
def ErrGroup.none : ErrGroup := { code := 0, opc := 0, info := 0 }

/-- The state after hardware reset (R52, R300), with no source byte placed, nothing for the host to do and nothing read
(log entry 14). -/
def State.reset : State :=
  { adu := Adu.reset
    bcu := Bcu.reset
    mode := .idle
    arg := 0
    srcSize := 0
    trkBase := Vector.replicate 5 0
    trkLen := Vector.replicate 5 0
    done := false
    empty := false
    err := ErrGroup.none
    result := 0
    resultHi := 0
    out := []
    src := { cells := [] }
    pending := []
    reads := []
    history := []
    mirrorReads := 0 }

end Sys2Proof.Machine
end

