-- ==== Sys2Proof/Machine/Ops.lean ====
section
/-! DEFINITION. The operations the meanings share: the source memory (R60, R61), fault entry and return (R273, R274), the
fault lock (R238), arithmetic (R11) and the output stream's samples and bytes (R62, R166, R67). -/

namespace Sys2Proof.Machine

/-- What a step answers. -/
abbrev Result := Host.Outcome State Fault Refusal

/-! ### Arithmetic (R11) -/

/-- `clamp(v, lo, hi)` (R11). -/
def clamp (v lo hi : Int) : Int := if v < lo then lo else if hi < v then hi else v

/-- The emitted sample `(PRED * 16) mod 65536` (R166). -/
def sampleOf (pred : Int) : Half := BitVec.ofInt 16 (pred * Config.outScale)

/-! ### The output stream laid out as bytes (R62 b, R67) -/

/-- The two bytes of a sample, the low one first (R62 b). -/
def sampleBytes (x : Half) : List Byte := [x.extractLsb' 0 8, x.extractLsb' 8 8]

/-- The samples laid out as bytes: sample `j` in bytes `2j` and `2j + 1` (R67). -/
def layOut (samples : List Half) : List Byte := samples.flatMap sampleBytes

/-- `OUT` as the byte stream its consumer takes (R67): a view of the samples, no storage of its own. -/
def State.outBytes (s : State) : List Byte := layOut s.out

/-! ### The source memory -/

/-- What a source address reads as while the host has placed no byte there (log entry 2). -/
def unplacedByte : Byte := 0

/-- The byte a list of cells holds for an address. -/
def lookupCell (a : Nat) : List Host.Cell → Byte
  | [] => unplacedByte
  | c :: rest => if c.1 = a then c.2 else lookupCell a rest

/-- Put a byte into a rising list of cells. -/
def insertCell (a : Nat) (b : Byte) : List Host.Cell → List Host.Cell
  | [] => [(a, b)]
  | c :: rest =>
    if a < c.1 then (a, b) :: c :: rest
    else if a = c.1 then (a, b) :: rest
    else c :: insertCell a b rest

/-- Take an address out of a list of cells. -/
def eraseCell (a : Nat) : List Host.Cell → List Host.Cell
  | [] => []
  | c :: rest => if a = c.1 then rest else c :: eraseCell a rest

/-- The byte at an address: the byte the host last placed there (R61). -/
def Memory.read (m : Memory) (a : Nat) : Byte := lookupCell a m.cells

/-- The host places a byte (R60). The form stays canonical: a byte equal to what an unlisted address reads as is not
listed. -/
def Memory.put (m : Memory) (a : Nat) (b : Byte) : Memory :=
  { cells := if b = unplacedByte then eraseCell a m.cells else insertCell a b m.cells }

/-- The canonical form: addresses strictly rising and below 2^32, no byte equal to what an unlisted address reads as. -/
def Memory.wf (m : Memory) : Bool :=
  decide (m.cells.Pairwise fun x y => x.1 < y.1) &&
    m.cells.all fun c => decide (c.1 < 2 ^ 32) && decide (c.2 ≠ unplacedByte)

/-- `MemRead(addr, 1)` (R61): nothing past `SRC_SIZE`. -/
def memRead1 (s : State) (addr : Nat) : Option Byte :=
  if addr + 1 > s.srcSize.toNat then none else some (s.src.read addr)

/-- `MemRead(addr, 2)`, little-endian (R61, R62): nothing unless both bytes lie below `SRC_SIZE`. -/
def memRead2 (s : State) (addr : Nat) : Option Half :=
  if addr + 2 > s.srcSize.toNat then none else some (s.src.read (addr + 1) ++ s.src.read addr)

/-! ### Fault entry and return -/

/-- The numeric code of a fault (R261). -/
def ErrKind.code : ErrKind → Byte
  | .invalidTrackIndex => 1
  | .invalidStepIndex => 2
  | .unexpectedEndOfStream => 3
  | .invalidBitCount => 4
  | .invalidTableIndex => 5
  | .illegalCommand => 6
  | .unimplemented => 7

/-- `raise F(info)` in a command with opcode `opc` (R273): exactly the `ERR` group is written. -/
def raiseErr (k : ErrKind) (opc : Byte) (info : Nat) (s : State) : State :=
  { s with err := { code := k.code, opc := opc, info := BitVec.ofNat 32 info } }

/-- The return from a fault (R274, R235): the `ERR` group is cleared and nothing is restored. -/
def clearErr (s : State) : State := { s with err := ErrGroup.none }

/-- The fault lock (R238): a command is dropped with no effect while `ERR_CODE` is not 0. -/
def unlessFaulted (s s' : State) : State := if s.err.code = 0 then s' else s

/-! ### Reset -/

/-- Every register of the block at its reset value (R52), with the output stream given; the host's side is kept. -/
def resetBlock (out : List Half) (s : State) : State :=
  { State.reset with
    out := out
    src := s.src
    pending := s.pending
    reads := s.reads
    mirrorReads := s.mirrorReads }

end Sys2Proof.Machine
end

