-- ==== Sys2Proof/Machine/Flags.lean ====
section
/-! DEFINITION. The flags: the fields of `STATUS` (R36) and the word of `ERR` (R37). -/

namespace Sys2Proof.Machine

/-- `BUSY`, bit 0: `MODE = ADU_RUN`. -/
def State.busy (s : State) : Bool := decide (s.mode = .aduRun)

/-- `ERR`, bit 2: `ERR_CODE` is not 0. -/
def State.errFlag (s : State) : Bool := decide (s.err.code ≠ 0)

/-- `PRESENT[k]`, bit `4 + k`: the track's length is not 0. -/
def State.present (s : State) (k : Fin 5) : Bool := decide (s.trkLen[k] ≠ 0)

/-- A flag at a bit position. -/
def flagAt (b : Bool) (i : Nat) : Nat := if b then 2 ^ i else 0

/-- The word `STATUS` reads as (R36): bits 31 to 9 are 0. -/
def State.status (s : State) : Word :=
  BitVec.ofNat 32 (flagAt s.busy 0 + flagAt s.done 1 + flagAt s.errFlag 2 + flagAt s.empty 3 +
    flagAt (s.present 0) 4 + flagAt (s.present 1) 5 + flagAt (s.present 2) 6 + flagAt (s.present 3) 7 +
    flagAt (s.present 4) 8)

/-- The word `ERR` reads as (R37): `ERR_OPC` in bits 15 to 8, `ERR_CODE` in bits 7 to 0. -/
def State.errWord (s : State) : Word := BitVec.ofNat 32 (256 * s.err.opc.toNat + s.err.code.toNat)

/-- What an accepted `ADU_START` of an absent track leaves in the flags (R234). -/
def startEmpty (s : State) : State := { s with empty := true, done := true }

/-- What an accepted `ADU_START` of a present track leaves in the flags and in `MODE` (R234); a new run has no earlier step
boundary. -/
def startRun (s : State) : State := { s with empty := false, done := false, mode := .aduRun, history := [] }

/-- The end of a run (R168). -/
def endRun (s : State) : State := { s with mode := .idle, done := true, history := [] }

end Sys2Proof.Machine
end

