-- ==== Sys2Proof/Machine/Operands.lean ====
section
/-! DEFINITION. The operands an instruction takes from the state: the track descriptor, the byte and the code of a sample
step, the step size and the two forms of a delta (R162 to R165), the bit cursor's window (R143, R144). -/

namespace Sys2Proof.Machine

/-! ### Sample codes -/

/-- The source address of the byte being decoded, `TRK_BASE[ATRK] + BPTR`, without wrap-around (R26, R48). -/
def trackAddr (s : State) : Nat := s.trkBase[s.adu.atrk].toNat + s.adu.bptr.toNat

/-- The unconsumed bits of the current byte: fetched when a new byte begins, else those in `CUR` (R162). -/
def currentBits (s : State) : Option Byte :=
  if s.adu.bitpos = 0 then memRead1 s (trackAddr s) else some s.adu.cur

/-- The width of the next code (R93, R163). -/
def codeWidth (a : Adu) : Nat :=
  if a.sidx < Config.modeThreshold ∨ a.bitpos > Config.bitposLimit then 2 else 4

/-- `STEP_TABLE[SIDX]`. -/
def stepSize (T : Config.Tables) (sidx : Nat) : Nat := T.stepTable.getD sidx 0

/-- The delta `d` of a 2-bit code at a step size (R164). -/
def delta2 (c : BitVec 2) (step : Nat) : Int :=
  let m : Nat := (step >>> 3) + (if c.getLsbD 0 then step else 0)
  if c.getLsbD 1 then -(m : Int) else m

/-- The delta `d` of a 4-bit code at a step size (R165). -/
def delta4 (c : BitVec 4) (step : Nat) : Int :=
  let m : Nat := (step >>> 3) + (if c.getLsbD 0 then step >>> 2 else 0) + (if c.getLsbD 1 then step >>> 1 else 0) +
    (if c.getLsbD 2 then step else 0)
  if c.getLsbD 3 then -(m : Int) else m

/-- `IDX2[c]` (R45). -/
def adjust2 (c : BitVec 2) : Int := Config.idx2.getD c.toNat 0

/-- `IDX4[c]` (R46). -/
def adjust4 (T : Config.Tables) (c : BitVec 4) : Int := T.idx4.getD c.toNat 0

/-! ### The bit cursor -/

/-- `Refill` (R143): the next little-endian word goes above the valid bits; nothing past the end of the source. -/
def refill (s : State) : Option Bcu :=
  (memRead2 s s.bcu.bwp.toNat).map fun w =>
    { bval := s.bcu.bval ||| BitVec.shiftLeft (w.zeroExtend 32) (16 - s.bcu.bidx).toNat
      bidx := s.bcu.bidx - 16
      bwp := s.bcu.bwp + 2 }

/-- The result of `Extract(n)` (R144): the low `n` bits. -/
def extractBits (n : Nat) (b : Bcu) : Word := b.bval &&& BitVec.ofNat 32 (2 ^ n - 1)

/-- The cursor after `Extract(n)` (R144). -/
def afterExtract (n : Nat) (b : Bcu) : Bcu := { b with bval := b.bval >>> n, bidx := b.bidx + n }

end Sys2Proof.Machine
end

