-- ==== Sys2Proof/Machine/Adpcm.lean ====
section
/-! DEFINITION. The audio decode unit: the 20 sample codes (R161 to R189). -/

namespace Sys2Proof.Machine

/-- Taking a code of width `w` from the unconsumed bits (R163). -/
def consume (w : Nat) (bits : Byte) (a : Adu) : Adu := { a with cur := bits >>> w }

/-- The common tail (R166), but for the sample it emits: `s` is the unclamped index, `d` the unclamped delta. -/
def codecTail (d s : Int) (a : Adu) : Adu :=
  { a with
    sidx := (clamp s 0 Config.sidxMax).toNat
    diff := clamp d Config.diffMin Config.diffMax
    pred := a.pred + clamp d Config.diffMin Config.diffMax
    nout := a.nout + 1 }

/-- The advance by a code's width (R167). -/
def advance (w : Nat) (a : Adu) : Adu :=
  if a.bitpos + w = 8 then { a with bitpos := 0, bptr := a.bptr + 1 } else { a with bitpos := a.bitpos + w }

/-- The whole track is consumed (R168). -/
def runEnded (a : Adu) (s : State) : Bool := decide (a.bitpos = 0) && decide (a.bptr = s.trkLen[a.atrk])

/-- The state after a sample step that leaves the registers `a`: the sample is emitted (R166) and the end is tested (R168).
A run that goes on remembers the boundary it leaves (R41). -/
def emitSample (a : Adu) (s : State) : State :=
  let s' := { s with adu := a, out := s.out ++ [sampleOf a.pred] }
  if runEnded a s then endRun s' else { s' with history := s.adu :: s.history }

/-- The registers after one sample step from `a` with the unconsumed bits `bits`, a code of width `w`, delta `d` and index
adjustment `adj` (R163 to R167). -/
def sampleRegs (w : Nat) (d adj : Int) (bits : Byte) (a : Adu) : Adu :=
  advance w (codecTail d (a.sidx + adj) (consume w bits a))

/-- One whole sample step (R161) for a code of width `w` whose delta is `d` of the step size and whose index adjustment is
`adj`: fetch, consume, decode, tail, advance, end test. -/
def sampleStep (T : Config.Tables) (w : Nat) (d : Nat → Int) (adj : Int) (s : State) : Result :=
  match currentBits s with
  | none => .fault .fetchPastSource
  | some bits =>
    if s.adu.sidx < Config.stepTableLen then
      .next (emitSample (sampleRegs w (d (stepSize T s.adu.sidx)) adj bits s.adu) s)
    else .fault .stepIndexOutOfTable

/-- A 2-bit code (R164). -/
def sampleS2 (T : Config.Tables) (c : BitVec 2) (s : State) : Result := sampleStep T 2 (delta2 c) (adjust2 c) s

/-- A 4-bit code (R165). -/
def sampleS4 (T : Config.Tables) (c : BitVec 4) (s : State) : Result := sampleStep T 4 (delta4 c) (adjust4 T c) s

/-- `S2.0` (R170). -/
def execS2_0 (s : State) : Result := sampleS2 Config.tables 0 s

/-- `S2.1` (R171). -/
def execS2_1 (s : State) : Result := sampleS2 Config.tables 1 s

/-- `S2.2` (R172). -/
def execS2_2 (s : State) : Result := sampleS2 Config.tables 2 s

/-- `S2.3` (R173). -/
def execS2_3 (s : State) : Result := sampleS2 Config.tables 3 s

/-- `S4.0` (R174). -/
def execS4_0 (s : State) : Result := sampleS4 Config.tables 0 s

/-- `S4.1` (R175). -/
def execS4_1 (s : State) : Result := sampleS4 Config.tables 1 s

/-- `S4.2` (R176). -/
def execS4_2 (s : State) : Result := sampleS4 Config.tables 2 s

/-- `S4.3` (R177). -/
def execS4_3 (s : State) : Result := sampleS4 Config.tables 3 s

/-- `S4.4` (R178). -/
def execS4_4 (s : State) : Result := sampleS4 Config.tables 4 s

/-- `S4.5` (R179). -/
def execS4_5 (s : State) : Result := sampleS4 Config.tables 5 s

/-- `S4.6` (R180). -/
def execS4_6 (s : State) : Result := sampleS4 Config.tables 6 s

/-- `S4.7` (R181). -/
def execS4_7 (s : State) : Result := sampleS4 Config.tables 7 s

/-- `S4.8` (R182). -/
def execS4_8 (s : State) : Result := sampleS4 Config.tables 8 s

/-- `S4.9` (R183). -/
def execS4_9 (s : State) : Result := sampleS4 Config.tables 9 s

/-- `S4.A` (R184). -/
def execS4_a (s : State) : Result := sampleS4 Config.tables 10 s

/-- `S4.B` (R185). -/
def execS4_b (s : State) : Result := sampleS4 Config.tables 11 s

/-- `S4.C` (R186). -/
def execS4_c (s : State) : Result := sampleS4 Config.tables 12 s

/-- `S4.D` (R187). -/
def execS4_d (s : State) : Result := sampleS4 Config.tables 13 s

/-- `S4.E` (R188). -/
def execS4_e (s : State) : Result := sampleS4 Config.tables 14 s

/-- `S4.F` (R189). -/
def execS4_f (s : State) : Result := sampleS4 Config.tables 15 s

end Sys2Proof.Machine
end

