-- ==== Sys2Proof/Machine/BitCursor.lean ====
section
/-! DEFINITION. The bit cursor unit: `BCU_INIT` and `BCU_READ` (R141 to R144). -/

namespace Sys2Proof.Machine

/-- `BCU_INIT` (R141): the empty window at `ARG`. -/
def execBcuInit (s : State) : Result :=
  .next (unlessFaulted s { s with bcu := { bval := 0, bidx := 16, bwp := s.arg } })

/-- Delivering `n` bits from a cursor that holds them (R142, R144). -/
def deliver (n : Nat) (b : Bcu) (s : State) : State :=
  { s with bcu := afterExtract n b, result := extractBits n b, resultHi := 0 }

/-- `BCU_READ n` while no fault is held (R142): the bit count is checked first, then the end of the source. -/
def bcuRead (n : Nat) (s : State) : State :=
  if n < 1 ∨ n > 16 then raiseErr .invalidBitCount 0x03 n s
  else if s.bcu.bidx + n > 16 then
    match refill s with
    | none => raiseErr .unexpectedEndOfStream 0x03 s.bcu.bwp.toNat s
    | some b => deliver n b s
  else deliver n s.bcu s

/-- `BCU_READ n` (R142). -/
def execBcuRead (n : Nat) (s : State) : Result := .next (unlessFaulted s (bcuRead n s))

end Sys2Proof.Machine
end

