-- ==== Sys2Proof/Machine/Lut.lean ====
section
/-! DEFINITION. The lookup table unit: the contents of `T3` and `LINE` (R125 to R127) and the four lookups (R132 to R135). -/

namespace Sys2Proof.Machine

/-- The eight base-3 digits of an index, the most significant first: `dig_0` to `dig_7` (R125). -/
def digits (i : Nat) : List Nat :=
  [i / 2187 % 3, i / 729 % 3, i / 243 % 3, i / 81 % 3, i / 27 % 3, i / 9 % 3, i / 3 % 3, i % 3]

/-- `T3[i]` (R126). -/
def t3Entry (T : Config.Tables) (i : Nat) : Nat := Config.dot T.w3 (digits i)

/-- `LINE[i]`, eight bytes (R127). -/
def lineEntry (T : Config.Tables) (i : Nat) : List Nat := T.linePerm.map fun p => (digits i).getD p 0

/-- Four bytes of an entry from position `o` on, the first in bits 7 to 0 (R103). -/
def packBytes (l : List Nat) (o : Nat) : Word :=
  BitVec.ofNat 32 (l.getD o 0 + 256 * l.getD (o + 1) 0 + 65536 * l.getD (o + 2) 0 + 16777216 * l.getD (o + 3) 0)

/-- The value `RESULT` takes for an entry of `T3`: the entry, zero-extended (R38); a free value if it does not fit (log
entry 3). -/
def t3Word (T : Config.Tables) (i : Nat) : Word :=
  if t3Entry T i < 2 ^ 32 then BitVec.ofNat 32 (t3Entry T i) else Config.unfitResult i

/-- A lookup while no fault is held: the index is checked against the table's length, then both result registers are
written (R132 to R135). -/
def lookup (opc : Byte) (len i : Nat) (lo hi : Word) (s : State) : State :=
  if i ≥ len then raiseErr .invalidTableIndex opc i s else { s with result := lo, resultHi := hi }

/-- `LTU_T1 i` (R132) with given tables. -/
def ltuT1 (T : Config.Tables) (i : Nat) (s : State) : State :=
  lookup 0x04 Config.shortTableLen i (BitVec.ofNat 32 (T.t1.getD i 0)) 0 s

/-- `LTU_T2 i` (R133) with given tables. -/
def ltuT2 (T : Config.Tables) (i : Nat) (s : State) : State :=
  lookup 0x05 Config.shortTableLen i (BitVec.ofNat 32 (T.t2.getD i 0)) 0 s

/-- `LTU_T3 i` (R134) with given tables. -/
def ltuT3 (T : Config.Tables) (i : Nat) (s : State) : State :=
  lookup 0x06 Config.longTableLen i (t3Word T i) 0 s

/-- `LTU_LINE i` (R135) with given tables. -/
def ltuLine (T : Config.Tables) (i : Nat) (s : State) : State :=
  lookup 0x07 Config.longTableLen i (packBytes (lineEntry T i) 0) (packBytes (lineEntry T i) 4) s

/-- `LTU_T1 i` (R132). -/
def execLtuT1 (i : Nat) (s : State) : Result := .next (unlessFaulted s (ltuT1 Config.tables i s))

/-- `LTU_T2 i` (R133). -/
def execLtuT2 (i : Nat) (s : State) : Result := .next (unlessFaulted s (ltuT2 Config.tables i s))

/-- `LTU_T3 i` (R134). -/
def execLtuT3 (i : Nat) (s : State) : Result := .next (unlessFaulted s (ltuT3 Config.tables i s))

/-- `LTU_LINE i` (R135). -/
def execLtuLine (i : Nat) (s : State) : Result := .next (unlessFaulted s (ltuLine Config.tables i s))

end Sys2Proof.Machine
end

