-- ==== Sys2Proof/Machine/System.lean ====
section
/-! DEFINITION. The system commands (R233 to R237) and the layer decode unit's one command (R221). -/

namespace Sys2Proof.Machine

/-- `NOP` (R233): nothing changes, a held fault included. -/
def execNop (s : State) : Result := .next s

/-- The track's bytes are not all inside the source; an absent track is not checked (R234, R264). -/
def trackOutside (k : Fin 5) (s : State) : Bool :=
  decide (s.trkLen[k] ≠ 0) && decide (s.trkBase[k].toNat + s.trkLen[k].toNat > s.srcSize.toNat)

/-- The codec at the start of a track (R234, R302). -/
def startAdu (k : Fin 5) (s0 : Nat) : Adu :=
  { pred := 0, sidx := s0, diff := 0, cur := 0, bitpos := 0, bptr := 0, nout := 0, atrk := k }

/-- An accepted `ADU_START` (R234). -/
def acceptStart (k : Fin 5) (s0 : Nat) (s : State) : State :=
  let s' := { s with adu := startAdu k s0 }
  if s.trkLen[k] = 0 then startEmpty s' else startRun s'

/-- `ADU_START k, s0` while no fault is held (R234): track index, step index, range, in that order (R272). -/
def aduStart (k s0 : Nat) (s : State) : State :=
  if hk : k < 5 then
    if s0 > Config.sidxMax then raiseErr .invalidStepIndex 0x01 s0 s
    else if trackOutside ⟨k, hk⟩ s then raiseErr .unexpectedEndOfStream 0x01 (s.trkBase[k].toNat) s
    else acceptStart ⟨k, hk⟩ s0 s
  else raiseErr .invalidTrackIndex 0x01 k s

/-- `ADU_START k, s0` (R234). -/
def execAduStart (k s0 : Nat) (s : State) : Result := .next (unlessFaulted s (aduStart k s0 s))

/-- `LDU_DECODE` (R221): always `Unimplemented`. -/
def execLduDecode (s : State) : Result := .next (unlessFaulted s (raiseErr .unimplemented 0x08 0 s))

/-- `CLR_ERR` (R235): executed under a held fault too. -/
def execClrErr (s : State) : Result := .next (clearErr s)

/-- `SOFT_RESET` (R236): every register takes its reset value, `OUT` excepted; executed under a held fault too. -/
def execSoftReset (s : State) : Result := .next (resetBlock s.out s)

/-- A command word with a reserved opcode (R237, R269). -/
def illegalCommand (w : Word) (s : State) : State :=
  unlessFaulted s (raiseErr .illegalCommand (opcodeOf w) w.toNat s)

end Sys2Proof.Machine
end

