-- ==== Sys2Proof/Machine/Dispatch.lean ====
section
/-! DEFINITION. The dispatch: one arm for each instruction. -/

namespace Sys2Proof.Machine

def exec (i : Instr) (s : State) : Host.Outcome State Fault Refusal :=
  match i with
  | .s2_0 => Sys2Proof.Machine.execS2_0 s
  | .s2_1 => Sys2Proof.Machine.execS2_1 s
  | .s2_2 => Sys2Proof.Machine.execS2_2 s
  | .s2_3 => Sys2Proof.Machine.execS2_3 s
  | .s4_0 => Sys2Proof.Machine.execS4_0 s
  | .s4_1 => Sys2Proof.Machine.execS4_1 s
  | .s4_2 => Sys2Proof.Machine.execS4_2 s
  | .s4_3 => Sys2Proof.Machine.execS4_3 s
  | .s4_4 => Sys2Proof.Machine.execS4_4 s
  | .s4_5 => Sys2Proof.Machine.execS4_5 s
  | .s4_6 => Sys2Proof.Machine.execS4_6 s
  | .s4_7 => Sys2Proof.Machine.execS4_7 s
  | .s4_8 => Sys2Proof.Machine.execS4_8 s
  | .s4_9 => Sys2Proof.Machine.execS4_9 s
  | .s4_a => Sys2Proof.Machine.execS4_a s
  | .s4_b => Sys2Proof.Machine.execS4_b s
  | .s4_c => Sys2Proof.Machine.execS4_c s
  | .s4_d => Sys2Proof.Machine.execS4_d s
  | .s4_e => Sys2Proof.Machine.execS4_e s
  | .s4_f => Sys2Proof.Machine.execS4_f s
  | .nop => Sys2Proof.Machine.execNop s
  | .aduStart k s0 => Sys2Proof.Machine.execAduStart k s0 s
  | .bcuInit => Sys2Proof.Machine.execBcuInit s
  | .bcuRead n => Sys2Proof.Machine.execBcuRead n s
  | .ltuT1 n => Sys2Proof.Machine.execLtuT1 n s
  | .ltuT2 n => Sys2Proof.Machine.execLtuT2 n s
  | .ltuT3 n => Sys2Proof.Machine.execLtuT3 n s
  | .ltuLine n => Sys2Proof.Machine.execLtuLine n s
  | .lduDecode => Sys2Proof.Machine.execLduDecode s
  | .clrErr => Sys2Proof.Machine.execClrErr s
  | .softReset => Sys2Proof.Machine.execSoftReset s

end Sys2Proof.Machine
end

