-- ==== Sys2Proof/Machine/RegisterMap.lean ====
section
/-! DEFINITION. The host's register map (R34 to R42): what a register reads as, what a write stores. -/

namespace Sys2Proof.Machine

/-- A register's byte offset from the block's base address (R42). -/
def registerOffset (index : Nat) : Nat := 4 * index

/-- The bits of `ADU_BITS`: `BITPOS` in 3 to 0, `CUR` in 15 to 8, `ATRK` in 18 to 16 (R41). -/
def aduBits (a : Adu) : Word :=
  BitVec.ofNat 32 (a.bitpos % 16 + 256 * a.cur.toNat + 65536 * a.atrk.val)

/-- The value register `index` reads as (R34 to R42), with the ADU mirrors showing the registers `a`. The write-only `CMD`
and every index above 28 read as 0. -/
def registerValue (index : Nat) (a : Adu) (s : State) : Word :=
  match index with
  | 1 => s.arg
  | 2 => s.status
  | 3 => s.errWord
  | 4 => s.err.info
  | 5 => s.result
  | 6 => s.resultHi
  | 7 => s.srcSize
  | 8 => s.trkBase[0]
  | 9 => s.trkBase[1]
  | 10 => s.trkBase[2]
  | 11 => s.trkBase[3]
  | 12 => s.trkBase[4]
  | 13 => s.trkLen[0]
  | 14 => s.trkLen[1]
  | 15 => s.trkLen[2]
  | 16 => s.trkLen[3]
  | 17 => s.trkLen[4]
  | 18 => BitVec.ofInt 32 a.pred
  | 19 => BitVec.ofInt 32 (a.pred / 2 ^ 32)
  | 20 => BitVec.ofNat 32 a.sidx
  | 21 => BitVec.ofInt 32 a.diff
  | 22 => a.bptr
  | 23 => aduBits a
  | 24 => BitVec.ofNat 32 a.nout
  | 25 => BitVec.ofNat 32 (a.nout / 2 ^ 32)
  | 26 => s.bcu.bval
  | 27 => BitVec.ofInt 32 s.bcu.bidx
  | 28 => s.bcu.bwp
  | _ => 0

/-- The ADU mirrors (R41). -/
def isAduMirror (index : Nat) : Bool := decide (18 ≤ index) && decide (index ≤ 25)

/-- The registers whose write waits while a run is in progress (R43, R231). -/
def writeWaits (index : Nat) : Bool :=
  decide (index = 0) || decide (index = 1) || decide (index = 7) || (decide (8 ≤ index) && decide (index ≤ 17))

/-- What a performed write to a register other than `CMD` stores (R231); a read-only or unmapped register ignores it
(R42). -/
def storeRegister (index : Nat) (v : Word) (s : State) : State :=
  match index with
  | 1 => { s with arg := v }
  | 7 => { s with srcSize := v }
  | 8 => { s with trkBase := s.trkBase.set 0 v }
  | 9 => { s with trkBase := s.trkBase.set 1 v }
  | 10 => { s with trkBase := s.trkBase.set 2 v }
  | 11 => { s with trkBase := s.trkBase.set 3 v }
  | 12 => { s with trkBase := s.trkBase.set 4 v }
  | 13 => { s with trkLen := s.trkLen.set 0 v }
  | 14 => { s with trkLen := s.trkLen.set 1 v }
  | 15 => { s with trkLen := s.trkLen.set 2 v }
  | 16 => { s with trkLen := s.trkLen.set 3 v }
  | 17 => { s with trkLen := s.trkLen.set 4 v }
  | _ => s

/-- The ADU registers a mirror read shows during a run: those at some step boundary of the run, which one is free (R41,
U19, log entry 4). -/
def mirroredAdu (s : State) : Adu :=
  (s.adu :: s.history).getD (Config.mirrorPick s.mirrorReads % (s.history.length + 1)) s.adu

/-- `RD index` (R232): the reply is recorded and nothing of the block changes. -/
def hostRead (index : Nat) (s : State) : State :=
  if s.mode = .aduRun ∧ isAduMirror index then
    { s with reads := s.reads ++ [⟨index, registerValue index (mirroredAdu s) s⟩], mirrorReads := s.mirrorReads + 1 }
  else { s with reads := s.reads ++ [⟨index, registerValue index s.adu s⟩] }

end Sys2Proof.Machine
end

