-- ==== Sys2Proof/Machine/HostPort.lean ====
section
/-! DEFINITION. What a step does: the code a sample step selects (R162, R163), a performed write to `CMD` (R238) and the
host's actions (R230 to R232, R74, R300). -/

namespace Sys2Proof.Machine

/-- The encoding of the sample code the next step executes: the low bits of the unconsumed bits, in the format the state
selects (R93, R95, R163); none if the byte lies outside the source. -/
def nextCode (s : State) : Option Encoding :=
  (currentBits s).map fun bits =>
    if codeWidth s.adu = 2 then .s2 (bits.extractLsb' 0 2) else .s4 (bits.extractLsb' 0 4)

/-- A sample step: the selected code is decoded and executed (R161). -/
def runSample (s : State) : Result :=
  match nextCode s with
  | some (.s2 c) => exec (decodeS2 c) s
  | some (.s4 c) => exec (decodeS4 c) s
  | _ => .fault .fetchPastSource

/-- A performed write of `w` to `CMD` (R238). -/
def issueCommand (w : Word) (s : State) : Result :=
  match decode (.cw w) with
  | .ok i => exec i s
  | .error (.reservedOpcode w') => .next (illegalCommand w' s)

/-- The host may not change a byte of the running track (R74). -/
def inRunningTrack (addr : Nat) (s : State) : Bool :=
  decide (s.mode = .aduRun) && decide (s.trkBase[s.adu.atrk].toNat ≤ addr) &&
    decide (addr < s.trkBase[s.adu.atrk].toNat + s.trkLen[s.adu.atrk].toNat)

/-- The host's action is not performed now: a write that waits for the end of the run (R231). -/
def actionWaits (a : HostAction) (s : State) : Bool :=
  match a with
  | .wr index _ => decide (s.mode = .aduRun) && writeWaits index
  | .rd _ | .srcPut _ _ | .hardReset | .yield => false

/-- The block's own step: a sample step during a run, nothing else (R161, R281). -/
def blockStep (s : State) : Result :=
  match s.mode with
  | .aduRun => runSample s
  | .idle => .next s

/-- A performed action, in the state in which it is no longer to be performed. -/
def performAction (a : HostAction) (s : State) : Result :=
  match a with
  | .rd index => .next (hostRead index s)
  | .wr index v => if index = Reg.cmd then issueCommand v s else .next (storeRegister index v s)
  | .srcPut addr b =>
    if inRunningTrack addr.toNat s then .refused .trackByteChangedDuringRun
    else .next { s with src := s.src.put addr.toNat b }
  | .hardReset => .next (resetBlock [] s)
  | .yield => blockStep s

/-- One step: the next host action if it is performed now, else the block's own step (R6, R231, R305). -/
def nextStep (s : State) : Result :=
  match s.pending with
  | [] => blockStep s
  | a :: rest => if actionWaits a s then blockStep s else performAction a { s with pending := rest }

/-! ### A program placed from outside (log entry 13) -/

/-- `s` with the command word `w` as the host's next action, in `IDLE` and with no fault held, so that it is performed. -/
def placeCommand (w : Word) (s : State) : State :=
  { s with mode := .idle, err := ErrGroup.none, history := [], pending := [.wr Reg.cmd w] }

/-- `s` with a run in progress on a track of one byte `b` at source address 0, at its first code, with step index `sidx`
and nothing for the host to do. -/
def placeTrackByte (b : Byte) (sidx : Nat) (s : State) : State :=
  { s with
    adu := { s.adu with sidx := sidx, cur := 0, bitpos := 0, bptr := 0 }
    mode := .aduRun
    srcSize := 1
    trkBase := s.trkBase.set s.adu.atrk 0
    trkLen := s.trkLen.set s.adu.atrk 1
    src := s.src.put 0 b
    pending := []
    history := [] }

/-- The step index for a 2-bit code: the state's, if it selects the format, else 0. -/
def sidxForS2 (s : State) : Nat := if s.adu.sidx < Config.modeThreshold then s.adu.sidx else 0

/-- The step index for a 4-bit code: the state's, if it selects the format, else the least that does. -/
def sidxForS4 (s : State) : Nat :=
  if Config.modeThreshold ≤ s.adu.sidx ∧ s.adu.sidx ≤ Config.sidxMax then s.adu.sidx else Config.modeThreshold

/-- `s` with an encoded instruction placed so that the next step runs it. -/
def placeEncoding (e : Encoding) (s : State) : State :=
  match e with
  | .s2 c => placeTrackByte (c.zeroExtend 8) (sidxForS2 s) s
  | .s4 c => placeTrackByte (c.zeroExtend 8) (sidxForS4 s) s
  | .cw w => placeCommand w s

end Sys2Proof.Machine
end

