-- ==== Sys2Proof/Machine/Step.lean ====
section
/-! DEFINITION. The step function (R6, R12, R305): one host action or one sample step. -/

namespace Sys2Proof.Machine

/-- One step of the machine. -/
def step (s : State) : Host.Outcome State Fault Refusal := nextStep s

/-- `s` with an opcode-table row's bits placed where the next step takes its instruction from (log entries 12 and 13). -/
def State.withFetchWord (s : State) (nbits w : Nat) : State :=
  match tableEncoding nbits w with
  | some e => placeEncoding e s
  | none => s

end Sys2Proof.Machine
end

