-- ==== Sys2Proof/Machine/Reference.lean ====
section
/-! DEFINITION. The spec's functional forms of what the machine does, transcribed on their own and used by no meaning: the
run as a function of the track's bytes (R193) and the bit stream of the cursor (R147). -/

namespace Sys2Proof.Machine

/-! ### The run as a function (R193) -/

/-- The variables `pred`, `sidx`, `diff` of R193. -/
structure CodecVars where
  pred : Int
  sidx : Nat
  diff : Int
  deriving DecidableEq, Repr

/-- What follows the decode of one code in R193: clamp, accumulate, emit. -/
def CodecVars.after (v : CodecVars) (d s : Int) : CodecVars :=
  let diff := max (-2048) (min 2047 d)
  { pred := v.pred + diff, sidx := (max 0 (min 79 s)).toNat, diff := diff }

/-- The sample R193 appends. -/
def CodecVars.sample (v : CodecVars) : Half := BitVec.ofInt 16 ((v.pred * 16) % 65536)

/-- The body of R193's inner loop for a 2-bit code. -/
def CodecVars.code2 (T : Config.Tables) (v : CodecVars) (c : Nat) : CodecVars :=
  let step := T.stepTable.getD v.sidx 0
  let d : Int := (step / 8 : Nat)
  let d := if c &&& 1 ≠ 0 then d + step else d
  let d := if c &&& 2 ≠ 0 then -d else d
  v.after d (v.sidx + [(-1 : Int), 2, -1, 2].getD c 0)

/-- The body of R193's inner loop for a 4-bit code. -/
def CodecVars.code4 (T : Config.Tables) (v : CodecVars) (c : Nat) : CodecVars :=
  let step := T.stepTable.getD v.sidx 0
  let d : Int := (step / 8 : Nat)
  let d := if c &&& 1 ≠ 0 then d + (step / 4 : Nat) else d
  let d := if c &&& 2 ≠ 0 then d + (step / 2 : Nat) else d
  let d := if c &&& 4 ≠ 0 then d + step else d
  let d := if c &&& 8 ≠ 0 then -d else d
  v.after d (v.sidx + T.idx4.getD c 0)

/-- R193's inner loop from position `pos` with the unconsumed bits `cur`; `fuel` bounds the codes (a byte has at most 4). -/
def decodeByte (T : Config.Tables) : (fuel cur pos : Nat) → CodecVars → List Half × CodecVars
  | 0, _, _, v => ([], v)
  | fuel + 1, cur, pos, v =>
    if pos < 8 then
      let wide := ¬ (v.sidx < 18 ∨ pos > 4)
      let v' := if wide then v.code4 T (cur &&& 15) else v.code2 T (cur &&& 3)
      let w := if wide then 4 else 2
      let r := decodeByte T fuel (cur >>> w) (pos + w) v'
      (v'.sample :: r.1, r.2)
    else ([], v)

/-- R193's outer loop: the samples of the bytes and the variables after them. -/
def decodeTrack (T : Config.Tables) : List Byte → CodecVars → List Half × CodecVars
  | [], v => ([], v)
  | b :: rest, v =>
    let r := decodeByte T 4 b.toNat 0 v
    let q := decodeTrack T rest r.2
    (r.1 ++ q.1, q.2)

/-- The bytes at source addresses `base` to `base + len - 1`. -/
def sourceBytes (m : Memory) (base len : Nat) : List Byte := (List.range len).map fun i => m.read (base + i)

/-! ### The bit stream of the cursor (R147) -/

/-- Stream bit `q` from start address `s`: bit `q mod 8` of the byte at `s + q / 8`. -/
def streamBit (m : Memory) (s q : Nat) : Bool := (m.read (s + q / 8)).getLsbD (q % 8)

/-- The `n` stream bits from `q` on, the earliest as bit 0. -/
def streamField (m : Memory) (s q : Nat) : Nat → Nat
  | 0 => 0
  | n + 1 => streamField m s q n + (if streamBit m s (q + n) then 2 ^ n else 0)

end Sys2Proof.Machine
end

