-- ==== Sys2Proof/Safety.lean ====
section
/-! DEFINITION. What counts as a safe state: the invariant of the machine, from R22 to R31, R145, R169, R192, R261 and R273. -/

namespace Sys2Proof.Machine

/-- The cursor between commands (R145): the window holds exactly `16 - BIDX` valid bits. -/
structure Bcu.Inv (b : Bcu) : Prop where
  bidx_nonneg : 0 ≤ b.bidx
  bidx_le : b.bidx ≤ 16
  bval_lt : b.bval.toNat < 2 ^ (16 - b.bidx).toNat

/-- The codec at a step boundary (R192): the ranges of `SIDX` and `DIFF` (a, b), of `BITPOS` (c), of `PRED` (e), of `NOUT`
(f: between 2 and 4 bits of the track for each sample) and of `CUR` (g). -/
structure Adu.Inv (a : Adu) : Prop where
  sidx_le : a.sidx ≤ 79
  diff_ge : -2048 ≤ a.diff
  diff_le : a.diff ≤ 2047
  bitpos_mem : a.bitpos ∈ [0, 2, 4, 6]
  cur_lt : a.cur.toNat < 2 ^ (8 - a.bitpos)
  pred_ge : -2048 * (a.nout : Int) ≤ a.pred
  pred_le : a.pred ≤ 2047 * (a.nout : Int)
  nout_le : 2 * a.nout ≤ 8 * a.bptr.toNat + a.bitpos
  nout_ge : 8 * a.bptr.toNat + a.bitpos ≤ 4 * a.nout

/-- What holds while a run is in progress (R43, R192 d, R162, R36, R238): there is a byte left, the track lies inside the
source, and neither `DONE`, `EMPTY` nor a fault is held. -/
structure State.RunInv (s : State) : Prop where
  bptr_lt : s.adu.bptr.toNat < s.trkLen[s.adu.atrk].toNat
  inside : s.trkBase[s.adu.atrk].toNat + s.trkLen[s.adu.atrk].toNat ≤ s.srcSize.toNat
  not_done : s.done = false
  not_empty : s.empty = false
  no_fault : s.err.code = 0

/-- The invariant of the machine. -/
structure State.Inv (s : State) : Prop where
  adu : s.adu.Inv
  bcu : s.bcu.Inv
  run : s.mode = .aduRun → s.RunInv
  /-- Only a run has earlier boundaries, and they are boundaries of the same run (R41). -/
  history_idle : s.mode = .idle → s.history = []
  history_run : ∀ a ∈ s.history, a.atrk = s.adu.atrk ∧ a.nout < s.adu.nout
  /-- The samples of the run are the last of `OUT` (R51), and every sample is a multiple of 16 (R169 g). -/
  nout_le_out : s.adu.nout ≤ s.out.length
  out_scaled : ∀ x ∈ s.out, x.toNat % 16 = 0
  /-- An absent track's `ADU_START` finishes at once (R36). -/
  empty_done : s.empty = true → s.done = true
  /-- Codes 8 to 255 are never produced (R261), and without a fault the `ERR` group is 0 (R37). -/
  err_code_le : s.err.code.toNat ≤ 7
  err_none : s.err.code = 0 → s.err = ErrGroup.none
  src_wf : s.src.wf = true

/-- The next sample step has its byte: the current one, or one inside the source (R162). -/
def State.ByteAvailable (s : State) : Prop :=
  s.adu.bitpos = 0 → s.trkBase[s.adu.atrk].toNat + s.adu.bptr.toNat < s.srcSize.toNat

/-- The unconsumed bits the next sample step works on (R162). -/
def State.unconsumed (s : State) : Byte :=
  if s.adu.bitpos = 0 then s.src.read (s.trkBase[s.adu.atrk].toNat + s.adu.bptr.toNat) else s.adu.cur

end Sys2Proof.Machine
end

