-- ==== Sys2Proof/Certificates/Slice0/Obligations.lean ====
section
/-! DEFINITION. The statements for the provers. First the words they use (`Sys2Proof.Claims`), written from the rules and
not from the meanings; then one definition for each obligation. -/

namespace Sys2Proof.Claims

open Sys2Proof.Machine

/-! ### Sample codes -/

/-- `d` as a function of `step`, and the adjustment of the step index, of each 2-bit code (R170 to R173). -/
def twoBitRule : Instr → Option ((Nat → Int) × Int)
  | .s2_0 => some (fun step => (step >>> 3 : Nat), -1)
  | .s2_1 => some (fun step => ((step >>> 3) + step : Nat), 2)
  | .s2_2 => some (fun step => -((step >>> 3 : Nat) : Int), -1)
  | .s2_3 => some (fun step => -(((step >>> 3) + step : Nat) : Int), 2)
  | _ => none

/-- `d` as a function of `step`, and the code that indexes `IDX4`, of each 4-bit code (R174 to R189). -/
def fourBitRule : Instr → Option ((Nat → Int) × Nat)
  | .s4_0 => some (fun step => (step >>> 3 : Nat), 0)
  | .s4_1 => some (fun step => ((step >>> 3) + (step >>> 2) : Nat), 1)
  | .s4_2 => some (fun step => ((step >>> 3) + (step >>> 1) : Nat), 2)
  | .s4_3 => some (fun step => ((step >>> 3) + (step >>> 2) + (step >>> 1) : Nat), 3)
  | .s4_4 => some (fun step => ((step >>> 3) + step : Nat), 4)
  | .s4_5 => some (fun step => ((step >>> 3) + (step >>> 2) + step : Nat), 5)
  | .s4_6 => some (fun step => ((step >>> 3) + (step >>> 1) + step : Nat), 6)
  | .s4_7 => some (fun step => ((step >>> 3) + (step >>> 2) + (step >>> 1) + step : Nat), 7)
  | .s4_8 => some (fun step => -((step >>> 3 : Nat) : Int), 8)
  | .s4_9 => some (fun step => -(((step >>> 3) + (step >>> 2) : Nat) : Int), 9)
  | .s4_a => some (fun step => -(((step >>> 3) + (step >>> 1) : Nat) : Int), 10)
  | .s4_b => some (fun step => -(((step >>> 3) + (step >>> 2) + (step >>> 1) : Nat) : Int), 11)
  | .s4_c => some (fun step => -(((step >>> 3) + step : Nat) : Int), 12)
  | .s4_d => some (fun step => -(((step >>> 3) + (step >>> 2) + step : Nat) : Int), 13)
  | .s4_e => some (fun step => -(((step >>> 3) + (step >>> 1) + step : Nat) : Int), 14)
  | .s4_f => some (fun step => -(((step >>> 3) + (step >>> 2) + (step >>> 1) + step : Nat) : Int), 15)
  | _ => none

/-- The bits a sample code consumes; no other instruction is a sample code (R91, R92). -/
def codeBits : Instr → Option Nat
  | .s2_0 | .s2_1 | .s2_2 | .s2_3 => some 2
  | .s4_0 | .s4_1 | .s4_2 | .s4_3 | .s4_4 | .s4_5 | .s4_6 | .s4_7 => some 4
  | .s4_8 | .s4_9 | .s4_a | .s4_b | .s4_c | .s4_d | .s4_e | .s4_f => some 4
  | _ => none

/-- The 2-bit codes in the order of their values (R91, R98). -/
def twoBitCodes : List Instr := [.s2_0, .s2_1, .s2_2, .s2_3]

/-- The 4-bit codes in the order of their values (R92, R98). -/
def fourBitCodes : List Instr :=
  [.s4_0, .s4_1, .s4_2, .s4_3, .s4_4, .s4_5, .s4_6, .s4_7, .s4_8, .s4_9, .s4_a, .s4_b, .s4_c, .s4_d, .s4_e, .s4_f]

/-- The common tail of R166 from `s` to `t`, for the unclamped delta `d` and the unclamped step index `x`. -/
def TailOf (d x : Int) (s t : State) : Prop :=
  (t.adu.sidx : Int) = max 0 (min 79 x) ∧
  t.adu.diff = max (-2048) (min 2047 d) ∧
  t.adu.pred = s.adu.pred + t.adu.diff ∧
  t.adu.nout = s.adu.nout + 1 ∧
  ∃ y : Half, t.out = s.out ++ [y] ∧ (y.toNat : Int) = (t.adu.pred * 16) % 65536

/-- The encoding the next sample step takes from the unconsumed bits (R93, R95, R163). -/
def selected (s : State) : Encoding :=
  if s.adu.sidx < 18 ∨ s.adu.bitpos > 4 then .s2 (s.unconsumed.extractLsb' 0 2)
  else .s4 (s.unconsumed.extractLsb' 0 4)

/-! ### Commands -/

/-- The opcode byte of a command word (R97). -/
def opc (w : Word) : Nat := w.toNat / 2 ^ 24

/-- The word of `ADU_START k, s0` (R97). -/
def startWord (k s0 : Nat) : Word := BitVec.ofNat 32 (0x01000000 + 256 * s0 + k)

/-- The `k`-th base-3 digit of an index (R125). -/
def dig (k i : Nat) : Nat := i / 3 ^ (7 - k) % 3

/-- Byte `j` of `RESULT` and `RESULT_HI` taken together (R103). -/
def resultByte (t : State) (j : Nat) : Nat :=
  if j < 4 then t.result.toNat / 256 ^ j % 256 else t.resultHi.toNat / 256 ^ (j - 4) % 256

/-- The little-endian word the next refill fetches (R143, R62). -/
def refillWord (s : State) : Nat := (s.src.read s.bcu.bwp.toNat).toNat + 256 * (s.src.read (s.bcu.bwp.toNat + 1)).toNat

/-- `BCU_READ` with the given widths one after the other: the results and the state at the end, none as soon as one
faults. -/
def readFields : List Nat → State → Option (List Word × State)
  | [], s => some ([], s)
  | n :: ns, s =>
    match exec (.bcuRead n) s with
    | .next t => if t.err.code = 0 then (readFields ns t).map fun r => (t.result :: r.1, r.2) else none
    | _ => none

/-- The fields of those widths in the bit stream from start address `a`, from stream bit `q` on (R147). -/
def streamFields (m : Memory) (a : Nat) : Nat → List Nat → List Nat
  | _, [] => []
  | q, n :: ns => streamField m a q n :: streamFields m a (q + n) ns

/-! ### The host's registers -/

/-- The registers the host writes and whose writes wait during a run: `CMD`, `ARG`, `SRC_SIZE`, `TRK_BASE`, `TRK_LEN`
(R231). -/
def Waits (index : Nat) : Prop := index = 0 ∨ index = 1 ∨ index = 7 ∨ (8 ≤ index ∧ index ≤ 17)

/-- The host leaves the next step of a run to the block: it has nothing to do, its write waits, or it yields. -/
def LeavesStepToBlock (s : State) : Prop :=
  s.pending = [] ∨ (∃ index v rest, s.pending = .wr index v :: rest ∧ Waits index) ∨ ∃ rest, s.pending = .yield :: rest

/-- The values of the 29 registers in the order of R42, with the ADU mirrors showing the registers `a` (R34 to R41). -/
def mapValues (a : Adu) (s : State) : List Word :=
  [0, s.arg, s.status, BitVec.ofNat 32 (256 * s.err.opc.toNat + s.err.code.toNat), s.err.info, s.result, s.resultHi, s.srcSize] ++
    s.trkBase.toList ++ s.trkLen.toList ++
    [BitVec.ofInt 32 a.pred, BitVec.ofInt 32 (a.pred.fdiv (2 ^ 32)), BitVec.ofNat 32 a.sidx, BitVec.ofInt 32 a.diff, a.bptr,
      BitVec.ofNat 32 (a.bitpos % 16 + 2 ^ 8 * a.cur.toNat + 2 ^ 16 * a.atrk.val), BitVec.ofNat 32 a.nout,
      BitVec.ofNat 32 (a.nout / 2 ^ 32), s.bcu.bval, BitVec.ofInt 32 s.bcu.bidx, s.bcu.bwp]

/-- What a read of a register index returns: 0 above index 28 (R42). -/
def mapValue (index : Nat) (a : Adu) (s : State) : Word := (mapValues a s).getD index 0

/-- `s` is about to perform the command `ADU_START k, s0`, with nothing after it, and will accept it: no fault is held, the
step index is legal, and the track is absent or lies inside the source (R234). -/
structure AboutToStart (s : State) (k : Fin 5) (s0 : Nat) : Prop where
  mode : s.mode = .idle
  pending : s.pending = [.wr 0 (startWord k s0)]
  no_fault : s.err.code = 0
  sidx_le : s0 ≤ 79
  inside : s.trkLen[k] ≠ 0 → s.trkBase[k].toNat + s.trkLen[k].toNat ≤ s.srcSize.toNat

/-- The bytes of track `k`. -/
def trackBytes (s : State) (k : Fin 5) : List Byte := sourceBytes s.src s.trkBase[k].toNat s.trkLen[k].toNat

/-- `s` with another value of `PRED`. -/
def withPred (s : State) (p : Int) : State := { s with adu := { s.adu with pred := p } }

end Sys2Proof.Claims

open Sys2Proof Sys2Proof.Machine

/-! ## Encoding -/

/-- Of every instruction a word written out from R91, R92, R97 and R98, R101's own words among them: what each opcode and
each code decodes to, with the operand fields. -/
def Obligations.WrittenOutWordsDecode : Prop :=
  decode (.cw 0x00000000#32) = .ok .nop ∧
  decode (.cw 0x01002802#32) = .ok (.aduStart 2 40) ∧
  decode (.cw 0x02000000#32) = .ok .bcuInit ∧
  decode (.cw 0x0300000D#32) = .ok (.bcuRead 13) ∧
  decode (.cw 0x0400001F#32) = .ok (.ltuT1 31) ∧
  decode (.cw 0x05000013#32) = .ok (.ltuT2 19) ∧
  decode (.cw 0x060019A1#32) = .ok (.ltuT3 6561) ∧
  decode (.cw 0x070004D2#32) = .ok (.ltuLine 1234) ∧
  decode (.cw 0x08000000#32) = .ok .lduDecode ∧
  decode (.cw 0x09000000#32) = .ok .clrErr ∧
  decode (.cw 0x0A000000#32) = .ok .softReset ∧
  ([0, 1, 2, 3].map fun c => (decode (.s2 c)).toOption) = Claims.twoBitCodes.map some ∧
  ([0, 1, 2, 3, 4, 5, 6, 7, 8, 9, 10, 11, 12, 13, 14, 15].map fun c => (decode (.s4 c)).toOption) =
    Claims.fourBitCodes.map some

/-- Decoding the encoding of a well-formed instruction gives it back, with every operand. -/
def Obligations.DecodeInvertsEncode : Prop :=
  ∀ i : Instr, i.WellFormed = true → decode (encode i) = .ok i

/-- What decodes is well formed; a sample code encodes back to exactly its bits, a command to a word with the same opcode
byte that decodes to the same command. -/
def Obligations.DecodedEncodesBack : Prop :=
  ∀ (e : Encoding) (i : Instr), decode e = .ok i →
    i.WellFormed = true ∧ decode (encode i) = .ok i ∧
    (match e with
     | .s2 c => encode i = .s2 c
     | .s4 c => encode i = .s4 c
     | .cw w => ∃ w', encode i = .cw w' ∧ Claims.opc w' = Claims.opc w)

/-- R98, R100: exactly the opcodes `0x0B` to `0xFF` are rejected, by name; every sample code decodes (R99). -/
def Obligations.OnlyReservedOpcodesRejected : Prop :=
  (∀ w : Word, (0x0B ≤ Claims.opc w ↔ decode (.cw w) = .error (.reservedOpcode w)) ∧
    (Claims.opc w < 0x0B ↔ ∃ i, decode (.cw w) = .ok i)) ∧
  (∀ c, ∃ i, decode (.s2 c) = .ok i) ∧ (∀ c, ∃ i, decode (.s4 c) = .ok i)

/-- R97, U21: words that agree on the opcode and on the operand bits the command uses decode to the same command. -/
def Obligations.UnusedOperandBitsIgnored : Prop :=
  ∀ w w' : Word, Claims.opc w = Claims.opc w' → Claims.opc w < 0x0B →
    (Claims.opc w = 0x01 → w.toNat % 2 ^ 16 = w'.toNat % 2 ^ 16) →
    (Claims.opc w = 0x03 → w.toNat % 2 ^ 8 = w'.toNat % 2 ^ 8) →
    (0x04 ≤ Claims.opc w ∧ Claims.opc w ≤ 0x07 → w.toNat % 2 ^ 16 = w'.toNat % 2 ^ 16) →
    decode (.cw w) = decode (.cw w')

/-! ## A step runs the decoded instruction -/

/-- During a run the step is `exec` of the sample code that R93, R95 and R163 select, whether the host has nothing to do, a
write of the host waits (R231), or the host gives the step to the block (the model's `yield`, log entry 5). -/
def Obligations.StepRunsSelectedSampleCode : Prop :=
  ∀ (s : State) (i : Instr), s.mode = .aduRun → s.ByteAvailable → decode (Claims.selected s) = .ok i →
    (s.pending = [] → step s = exec i s) ∧
    (∀ index v rest, s.pending = .wr index v :: rest → Claims.Waits index → step s = exec i s) ∧
    (∀ rest, s.pending = .yield :: rest → step s = exec i { s with pending := rest })

/-- In `IDLE` a write to `CMD` executes the command the word encodes (R231, R238): the step is `exec` of it, in the state in
which the write is no longer to be performed. -/
def Obligations.StepRunsWrittenCommand : Prop :=
  ∀ (s : State) (w : Word) (rest : List HostAction) (i : Instr), s.mode = .idle → s.pending = .wr 0 w :: rest →
    decode (.cw w) = .ok i → step s = exec i { s with pending := rest }

/-- R237, R269: a reserved opcode raises `IllegalCommand` with the whole word. -/
def Obligations.ReservedOpcodeFaults : Prop :=
  ∀ (s : State) (w : Word) (rest : List HostAction), s.mode = .idle → s.pending = .wr 0 w :: rest → s.err.code = 0 →
    0x0B ≤ Claims.opc w →
    step s = .next { s with pending := rest, err := { code := 6, opc := BitVec.ofNat 8 (Claims.opc w), info := w } }

/-- R238: with a fault held a word is dropped with no effect unless its opcode is `0x00`, `0x09` or `0x0A`; otherwise the
command its opcode selects is executed. -/
def Obligations.FaultLockDropsCommands : Prop :=
  ∀ (s : State) (w : Word) (rest : List HostAction), s.mode = .idle → s.pending = .wr 0 w :: rest →
    (s.err.code ≠ 0 → Claims.opc w ≠ 0x00 → Claims.opc w ≠ 0x09 → Claims.opc w ≠ 0x0A →
      step s = .next { s with pending := rest }) ∧
    (s.err.code = 0 ∨ Claims.opc w = 0x00 ∨ Claims.opc w = 0x09 ∨ Claims.opc w = 0x0A →
      ∀ i, decode (.cw w) = .ok i → step s = exec i { s with pending := rest })

/-! ## Sample codes -/

/-- R164 and R166 for `S2.0` to `S2.3`, with the `d` and `s` of R170 to R173: the codes execute and leave these values, from
every state that has the byte and whose step index is inside `STEP_TABLE`. -/
def Obligations.TwoBitCodesResult : Prop :=
  ∀ (i : Instr) (d : Nat → Int) (adj : Int), Claims.twoBitRule i = some (d, adj) →
    ∀ s : State, s.ByteAvailable → s.adu.sidx < 89 →
      ∃ t, exec i s = .next t ∧
        Claims.TailOf (d (Config.tables.stepTable.getD s.adu.sidx 0)) (s.adu.sidx + adj) s t

/-- R165 and R166 for `S4.0` to `S4.F`, with the `d` and `s` of R174 to R189. -/
def Obligations.FourBitCodesResult : Prop :=
  ∀ (i : Instr) (d : Nat → Int) (c : Nat), Claims.fourBitRule i = some (d, c) →
    ∀ s : State, s.ByteAvailable → s.adu.sidx < 89 →
      ∃ t, exec i s = .next t ∧
        Claims.TailOf (d (Config.tables.stepTable.getD s.adu.sidx 0)) (s.adu.sidx + Config.tables.idx4.getD c 0) s t

/-- R163's shift, R167 and R168's test, for all twenty sample codes: what `CUR`, `BITPOS`, `BPTR`, `MODE` and `DONE` become;
`CUR` is 0 after the last code of a byte. -/
def Obligations.SampleCodesAdvance : Prop :=
  ∀ (i : Instr) (w : Nat), Claims.codeBits i = some w →
    ∀ s : State, s.ByteAvailable → s.adu.sidx < 89 →
      ∃ t, exec i s = .next t ∧
        t.adu.cur = s.unconsumed >>> w ∧
        (s.adu.bitpos + w = 8 → t.adu.bitpos = 0 ∧ t.adu.bptr = s.adu.bptr + 1) ∧
        (s.adu.bitpos + w ≠ 8 → t.adu.bitpos = s.adu.bitpos + w ∧ t.adu.bptr = s.adu.bptr) ∧
        (t.adu.bitpos = 0 ∧ t.adu.bptr = s.trkLen[s.adu.atrk] → t.mode = .idle ∧ t.done = true) ∧
        (¬(t.adu.bitpos = 0 ∧ t.adu.bptr = s.trkLen[s.adu.atrk]) → t.mode = s.mode ∧ t.done = s.done) ∧
        (s.adu.bitpos + w = 8 → s.unconsumed.toNat < 2 ^ (8 - s.adu.bitpos) → t.adu.cur = 0)

/-- What a sample code leaves unchanged (R33, R161, R308): all of the cursor, every host register but `DONE`, the `ERR`
group, the track index, every byte of the source, every sample already emitted, and the host's side. -/
def Obligations.SampleCodesFrame : Prop :=
  ∀ (i : Instr) (w : Nat), Claims.codeBits i = some w →
    ∀ s t : State, exec i s = .next t →
      t.adu.atrk = s.adu.atrk ∧ t.bcu = s.bcu ∧ t.arg = s.arg ∧ t.srcSize = s.srcSize ∧ t.trkBase = s.trkBase ∧
      t.trkLen = s.trkLen ∧ t.empty = s.empty ∧ t.err = s.err ∧ t.result = s.result ∧ t.resultHi = s.resultHi ∧
      (∀ a, t.src.read a = s.src.read a) ∧ s.out <+: t.out ∧ t.pending = s.pending ∧ t.reads = s.reads ∧
      t.mirrorReads = s.mirrorReads

/-- The model's own stops (log entry 9): a sample code faults with `fetchPastSource` exactly when its byte is needed and lies
outside the source (R61), and with `stepIndexOutOfTable` exactly when the byte is there and the step index is outside
`STEP_TABLE`. This is of the meaning applied to any state, of either mode. A sample step is executed in `ADU_RUN` alone (R161,
log entry 17), and there the invariant rules out both: its `RunInv` the first, its range of `SIDX` the second. -/
def Obligations.SampleCodesStop : Prop :=
  ∀ (i : Instr) (w : Nat), Claims.codeBits i = some w →
    ∀ s : State,
      (¬ s.ByteAvailable ↔ exec i s = .fault .fetchPastSource) ∧
      (s.ByteAvailable ∧ 89 ≤ s.adu.sidx ↔ exec i s = .fault .stepIndexOutOfTable)

/-- The model's own record for R41 (log entry 4): a sample step of a run that goes on remembers the boundary it leaves, the
step that ends the run forgets all of them; also while a write of the host waits (R231) and where the host gives the step to
the block (the model's `yield`, log entry 5). -/
def Obligations.RunRemembersItsBoundaries : Prop :=
  ∀ (s t : State), s.mode = .aduRun → Claims.LeavesStepToBlock s → step s = .next t →
    (t.mode = .aduRun → t.history = s.adu :: s.history) ∧ (t.mode = .idle → t.history = [])

/-! ## System commands -/

/-- R233: `NOP` changes nothing, with or without a fault held. -/
def Obligations.NopChangesNothing : Prop := ∀ s : State, exec .nop s = .next s

/-- R234, a present track inside the source: the codec is at the start of the track and the run begins; nothing else
changes. -/
def Obligations.StartOfPresentTrack : Prop :=
  ∀ (k : Nat) (hk : k < 5) (s0 : Nat) (s : State), s.err.code = 0 → s0 ≤ 79 → s.trkLen[k] ≠ 0 →
    s.trkBase[k].toNat + s.trkLen[k].toNat ≤ s.srcSize.toNat →
    exec (.aduStart k s0) s =
      .next { s with
        adu := { pred := 0, sidx := s0, diff := 0, cur := 0, bitpos := 0, bptr := 0, nout := 0, atrk := ⟨k, hk⟩ }
        empty := false
        done := false
        mode := .aduRun
        history := [] }

/-- R234, an absent track (length 0): the command succeeds whatever the base, sets `EMPTY` and `DONE`, and starts no run. -/
def Obligations.StartOfAbsentTrack : Prop :=
  ∀ (k : Nat) (hk : k < 5) (s0 : Nat) (s : State), s.err.code = 0 → s0 ≤ 79 → s.trkLen[k] = 0 →
    exec (.aduStart k s0) s =
      .next { s with
        adu := { pred := 0, sidx := s0, diff := 0, cur := 0, bitpos := 0, bptr := 0, nout := 0, atrk := ⟨k, hk⟩ }
        empty := true
        done := true }

/-- R262, R263, R264: the three faults of `ADU_START`, in the order of their checks; only the `ERR` group changes. -/
def Obligations.StartFaultsInOrder : Prop :=
  ∀ (k s0 : Nat) (s : State), s.err.code = 0 →
    (5 ≤ k → exec (.aduStart k s0) s = .next { s with err := { code := 1, opc := 0x01, info := BitVec.ofNat 32 k } }) ∧
    (k < 5 → 79 < s0 →
      exec (.aduStart k s0) s = .next { s with err := { code := 2, opc := 0x01, info := BitVec.ofNat 32 s0 } }) ∧
    (∀ hk : k < 5, s0 ≤ 79 → s.trkLen[k] ≠ 0 → s.srcSize.toNat < s.trkBase[k].toNat + s.trkLen[k].toNat →
      exec (.aduStart k s0) s = .next { s with err := { code := 3, opc := 0x01, info := s.trkBase[k] } })

/-- R235: `CLR_ERR` clears the `ERR` group, with or without a fault held, and changes nothing else. -/
def Obligations.ClearErrorGroup : Prop :=
  ∀ s : State, exec .clrErr s = .next { s with err := { code := 0, opc := 0, info := 0 } }

/-- R236 with the values of R52: `SOFT_RESET` gives every register its reset value, with or without a fault held; the output
stream, the source and the host's side are unchanged. -/
def Obligations.SoftResetValues : Prop :=
  ∀ s : State, ∃ t, exec .softReset s = .next t ∧
    t.adu = { pred := 0, sidx := 0, diff := 0, cur := 0, bitpos := 0, bptr := 0, nout := 0, atrk := 0 } ∧
    t.bcu = { bval := 0, bidx := 16, bwp := 0 } ∧ t.mode = .idle ∧ t.arg = 0 ∧ t.srcSize = 0 ∧
    (∀ k : Fin 5, t.trkBase[k] = 0 ∧ t.trkLen[k] = 0) ∧ t.done = false ∧ t.empty = false ∧
    t.err = { code := 0, opc := 0, info := 0 } ∧ t.result = 0 ∧ t.resultHi = 0 ∧ t.status = 0 ∧ t.out = s.out ∧
    (∀ a, t.src.read a = s.src.read a) ∧ t.pending = s.pending ∧ t.reads = s.reads

/-- R221, R268: `LDU_DECODE` raises `Unimplemented` and does nothing else. -/
def Obligations.LayerDecodeUnimplemented : Prop :=
  ∀ s : State, s.err.code = 0 → exec .lduDecode s = .next { s with err := { code := 7, opc := 0x08, info := 0 } }

/-! ## The bit cursor -/

/-- R141: `BCU_INIT` gives the empty window at `ARG`, whatever `ARG` is, and changes nothing else. -/
def Obligations.CursorInit : Prop :=
  ∀ s : State, s.err.code = 0 → exec .bcuInit s = .next { s with bcu := { bval := 0, bidx := 16, bwp := s.arg } }

/-- R144, when the window holds the bits (`BIDX + n ≤ 16`, R142): the result is the low `n` bits; no source byte is needed,
even past the end of the source (R146 e). -/
def Obligations.ReadWithoutRefill : Prop :=
  ∀ (n : Nat) (s : State), s.err.code = 0 → 1 ≤ n → n ≤ 16 → s.bcu.bidx + n ≤ 16 →
    exec (.bcuRead n) s =
      .next { s with
        bcu := { bval := BitVec.ofNat 32 (s.bcu.bval.toNat / 2 ^ n), bidx := s.bcu.bidx + n, bwp := s.bcu.bwp }
        result := BitVec.ofNat 32 (s.bcu.bval.toNat % 2 ^ n)
        resultHi := 0 }

/-- R142, R143, R144, when the window holds fewer than `n` bits and a whole word is left: with the cursor's invariant (R145)
the new word goes directly above the valid bits, the result is the low `n` bits of both, and `BWP` moves by 2. -/
def Obligations.ReadWithRefill : Prop :=
  ∀ (n : Nat) (s : State), s.err.code = 0 → s.bcu.Inv → 1 ≤ n → n ≤ 16 → 16 < s.bcu.bidx + n →
    s.bcu.bwp.toNat + 2 ≤ s.srcSize.toNat →
    let v := s.bcu.bval.toNat + 2 ^ (16 - s.bcu.bidx).toNat * Claims.refillWord s
    v < 2 ^ 31 ∧
    exec (.bcuRead n) s =
      .next { s with
        bcu := { bval := BitVec.ofNat 32 (v / 2 ^ n), bidx := s.bcu.bidx + n - 16,
                 bwp := BitVec.ofNat 32 (s.bcu.bwp.toNat + 2) }
        result := BitVec.ofNat 32 (v % 2 ^ n)
        resultHi := 0 }

/-- R265, R266: the two faults of `BCU_READ`, the bit count first; only the `ERR` group changes. -/
def Obligations.ReadFaultsInOrder : Prop :=
  ∀ (n : Nat) (s : State), s.err.code = 0 →
    (n = 0 ∨ 17 ≤ n → exec (.bcuRead n) s = .next { s with err := { code := 4, opc := 0x03, info := BitVec.ofNat 32 n } }) ∧
    (1 ≤ n → n ≤ 16 → 16 < s.bcu.bidx + n → s.srcSize.toNat < s.bcu.bwp.toNat + 2 →
      exec (.bcuRead n) s = .next { s with err := { code := 3, opc := 0x03, info := s.bcu.bwp } })

/-- R147, the bit stream: after `BCU_INIT` at any address, reads of any legal widths deliver the stream bits in order; they
all succeed exactly when every word they touch lies wholly inside the source. -/
def Obligations.CursorDeliversTheStream : Prop :=
  ∀ (s s1 : State) (widths : List Nat), s.err.code = 0 → exec .bcuInit s = .next s1 → widths ≠ [] →
    (∀ n ∈ widths, 1 ≤ n ∧ n ≤ 16) →
    ((Claims.readFields widths s1).isSome ↔ s.arg.toNat + 2 * ((widths.sum + 15) / 16) ≤ s.srcSize.toNat) ∧
    (∀ results t, Claims.readFields widths s1 = some (results, t) →
      results.map BitVec.toNat = Claims.streamFields s.src s.arg.toNat 0 widths)

/-! ## The lookup tables -/

/-- R132, R133: `LTU_T1` and `LTU_T2` return the entry of a legal index. -/
def Obligations.ShortTableLookups : Prop :=
  ∀ (i : Nat) (s : State), s.err.code = 0 → i < 32 →
    exec (.ltuT1 i) s = .next { s with result := BitVec.ofNat 32 (Config.tables.t1.getD i 0), resultHi := 0 } ∧
    exec (.ltuT2 i) s = .next { s with result := BitVec.ofNat 32 (Config.tables.t2.getD i 0), resultHi := 0 } ∧
    Config.tables.t1.getD i 0 < 6561 ∧ Config.tables.t2.getD i 0 < 6561

/-- R134 with R126: `LTU_T3` of a legal index returns the weighted sum of the index's base-3 digits, as far as it fits
`RESULT` (where it does not fit the value is free, log entry 3); index 0 gives 0 for every `W3`. -/
def Obligations.CompositeTableLookup : Prop :=
  ∀ (i : Nat) (s : State), s.err.code = 0 → i < 6561 →
    ∃ r : Word, exec (.ltuT3 i) s = .next { s with result := r, resultHi := 0 } ∧
      (((List.range 8).map fun k => Config.tables.w3.getD k 0 * Claims.dig k i).sum < 2 ^ 32 →
        r.toNat = ((List.range 8).map fun k => Config.tables.w3.getD k 0 * Claims.dig k i).sum) ∧
      (i = 0 → r = 0)

/-- R135 with R127 and R103: byte `j` of the result of `LTU_LINE` is digit `LINE_PERM[j]` of the index. -/
def Obligations.LineTableLookup : Prop :=
  ∀ (i : Nat) (s : State), s.err.code = 0 → i < 6561 →
    ∃ lo hi : Word, exec (.ltuLine i) s = .next { s with result := lo, resultHi := hi } ∧
      ∀ j, j < 8 →
        Claims.resultByte { s with result := lo, resultHi := hi } j = Claims.dig (Config.tables.linePerm.getD j 8) i

/-- R267: an index outside the table raises `InvalidTableIndex` and changes nothing else. -/
def Obligations.TableIndexFaults : Prop :=
  ∀ (i : Nat) (s : State), s.err.code = 0 →
    (32 ≤ i →
      exec (.ltuT1 i) s = .next { s with err := { code := 5, opc := 0x04, info := BitVec.ofNat 32 i } } ∧
      exec (.ltuT2 i) s = .next { s with err := { code := 5, opc := 0x05, info := BitVec.ofNat 32 i } }) ∧
    (6561 ≤ i →
      exec (.ltuT3 i) s = .next { s with err := { code := 5, opc := 0x06, info := BitVec.ofNat 32 i } } ∧
      exec (.ltuLine i) s = .next { s with err := { code := 5, opc := 0x07, info := BitVec.ofNat 32 i } })

/-- R136, R127 (Q9): the entries of `T3` are pairwise distinct, and different legal indices of `LINE` return different
results. -/
def Obligations.TableEntriesDistinct : Prop :=
  ∀ i j : Nat, i < 6561 → j < 6561 → i ≠ j →
    t3Entry Config.tables i ≠ t3Entry Config.tables j ∧
    ∀ s t u : State, s.err.code = 0 → exec (.ltuLine i) s = .next t → exec (.ltuLine j) s = .next u →
      (t.result, t.resultHi) ≠ (u.result, u.resultHi)

/-- R129 (Q10), of the reference contents only, which the spec marks as general knowledge: `LINE[T2[j]]` is `LINE[T1[j]]`
rotated left by one position. -/
def Obligations.ReferenceTablesShift : Prop :=
  ∀ j, j < 32 → ∀ p, p < 8 →
    (lineEntry Config.reference (Config.refT2.getD j 0)).getD p 3 =
      (lineEntry Config.reference (Config.refT1.getD j 0)).getD ((p + 1) % 8) 3

/-! ## The source memory -/

/-- R61: a read inside the source gives its bytes, the lower address in bits 7 to 0; a read that is not wholly inside does
not happen. -/
def Obligations.MemReadBounds : Prop :=
  ∀ (s : State) (addr : Nat),
    (addr + 1 ≤ s.srcSize.toNat → memRead1 s addr = some (s.src.read addr)) ∧
    (s.srcSize.toNat < addr + 1 → memRead1 s addr = none) ∧
    (addr + 2 ≤ s.srcSize.toNat →
      ∃ w, memRead2 s addr = some w ∧ w.toNat = (s.src.read addr).toNat + 256 * (s.src.read (addr + 1)).toNat) ∧
    (s.srcSize.toNat < addr + 2 → memRead2 s addr = none)

/-- R61: "A read returns the byte the host last placed at the address"; every other byte is as before, and the memory keeps
its canonical form. -/
def Obligations.SourceHoldsLastPlacedByte : Prop :=
  ∀ (s : State) (addr : Word) (b : Byte) (rest : List HostAction), s.src.wf = true → s.mode = .idle →
    s.pending = .srcPut addr b :: rest →
    ∃ t, step s = .next t ∧ t = { s with pending := rest, src := t.src } ∧ t.src.wf = true ∧
      ∀ a, t.src.read a = if a = addr.toNat then b else s.src.read a

/-- The model's form of R74 (log entry 7): during a run the host has no move that changes a byte of the running track.
A byte outside the track it may change: that address then reads as the byte placed, every other address, those of the track
among them, as before, and the block keeps its state. -/
def Obligations.RunningTrackIsNotChanged : Prop :=
  ∀ (s : State) (addr : Word) (b : Byte) (rest : List HostAction), s.mode = .aduRun → s.pending = .srcPut addr b :: rest →
    (s.trkBase[s.adu.atrk].toNat ≤ addr.toNat ∧
        addr.toNat < s.trkBase[s.adu.atrk].toNat + s.trkLen[s.adu.atrk].toNat →
      step s = .refused .trackByteChangedDuringRun) ∧
    (addr.toNat < s.trkBase[s.adu.atrk].toNat ∨
        s.trkBase[s.adu.atrk].toNat + s.trkLen[s.adu.atrk].toNat ≤ addr.toNat →
      s.src.wf = true →
      ∃ t, step s = .next t ∧ t = { s with pending := rest, src := t.src } ∧ t.src.wf = true ∧
        ∀ a, t.src.read a = if a = addr.toNat then b else s.src.read a)

/-! ## The host's registers -/

/-- R232 with R34 to R42: a register read is performed at once and records the register's value; nothing of the block
changes. The ADU mirrors during a run are the next statement's. -/
def Obligations.RegisterReads : Prop :=
  ∀ (s : State) (index : Nat) (rest : List HostAction), s.pending = .rd index :: rest →
    (s.mode = .idle ∨ index < 18 ∨ 25 < index) →
    step s = .next { s with pending := rest, reads := s.reads ++ [{ index := index, value := Claims.mapValue index s.adu s }] }

/-- R41, the free value of log entry 4: an ADU mirror read during a run returns the value at some step boundary of the run,
the latest or an earlier one. -/
def Obligations.MirrorReadsDuringRun : Prop :=
  ∀ (s : State) (index : Nat) (rest : List HostAction), s.pending = .rd index :: rest → s.mode = .aduRun →
    18 ≤ index → index ≤ 25 →
    ∃ a ∈ s.adu :: s.history,
      step s = .next { s with
        pending := rest
        reads := s.reads ++ [{ index := index, value := Claims.mapValue index a s }]
        mirrorReads := s.mirrorReads + 1 }

/-- R36: the fields of `STATUS`. -/
def Obligations.StatusFields : Prop :=
  ∀ s : State,
    (s.status.getLsbD 0 = true ↔ s.mode = .aduRun) ∧
    s.status.getLsbD 1 = s.done ∧
    (s.status.getLsbD 2 = true ↔ s.err.code ≠ 0) ∧
    s.status.getLsbD 3 = s.empty ∧
    (∀ k : Fin 5, s.status.getLsbD (4 + k.val) = true ↔ s.trkLen[k] ≠ 0) ∧
    ∀ j, 9 ≤ j → s.status.getLsbD j = false

/-- R231 in `IDLE`: a write to `ARG`, `SRC_SIZE`, `TRK_BASE[k]` or `TRK_LEN[k]` stores the value and changes nothing else. -/
def Obligations.RegisterWritesStore : Prop :=
  ∀ (s : State) (v : Word) (rest : List HostAction), s.mode = .idle →
    (s.pending = .wr 1 v :: rest → step s = .next { s with pending := rest, arg := v }) ∧
    (s.pending = .wr 7 v :: rest → step s = .next { s with pending := rest, srcSize := v }) ∧
    (∀ k : Fin 5, s.pending = .wr (8 + k.val) v :: rest →
      step s = .next { s with pending := rest, trkBase := s.trkBase.set k v }) ∧
    (∀ k : Fin 5, s.pending = .wr (13 + k.val) v :: rest →
      step s = .next { s with pending := rest, trkLen := s.trkLen.set k v })

/-- R42: a write to a read-only or unmapped register is ignored, in either mode, without a fault. -/
def Obligations.StrayWritesIgnored : Prop :=
  ∀ (s : State) (index : Nat) (v : Word) (rest : List HostAction), s.pending = .wr index v :: rest → ¬ Claims.Waits index →
    step s = .next { s with pending := rest }

/-- R231 during a run: a write to `CMD`, `ARG`, `SRC_SIZE`, `TRK_BASE` or `TRK_LEN` is not performed; the step is the ADU's,
emits one sample, changes none of these registers, and the write is still to be performed. -/
def Obligations.WritesWaitDuringRun : Prop :=
  ∀ (s : State) (index : Nat) (v : Word) (rest : List HostAction), s.Inv → s.mode = .aduRun →
    s.pending = .wr index v :: rest → Claims.Waits index →
    ∃ t, step s = .next t ∧ t.pending = s.pending ∧ t.arg = s.arg ∧ t.srcSize = s.srcSize ∧ t.trkBase = s.trkBase ∧
      t.trkLen = s.trkLen ∧ t.err = s.err ∧ ∃ x, t.out = s.out ++ [x]

/-! ## Reset and idling -/

/-- R52, R300: the state after reset. -/
def Obligations.ResetValues : Prop :=
  State.reset.adu = { pred := 0, sidx := 0, diff := 0, cur := 0, bitpos := 0, bptr := 0, nout := 0, atrk := 0 } ∧
  State.reset.bcu = { bval := 0, bidx := 16, bwp := 0 } ∧ State.reset.mode = .idle ∧ State.reset.arg = 0 ∧
  State.reset.srcSize = 0 ∧ (∀ k : Fin 5, State.reset.trkBase[k] = 0 ∧ State.reset.trkLen[k] = 0) ∧
  State.reset.done = false ∧ State.reset.empty = false ∧ State.reset.err = { code := 0, opc := 0, info := 0 } ∧
  State.reset.result = 0 ∧ State.reset.resultHi = 0 ∧ State.reset.out = []

/-- R300, R301, R308: the reset input is performed in either mode, aborts a run, and leaves every register and the output
stream as after reset; the source, the host's further actions and its replies are kept (log entry 8). -/
def Obligations.HardResetInEitherMode : Prop :=
  ∀ (s : State) (rest : List HostAction), s.pending = .hardReset :: rest →
    step s = .next { State.reset with src := s.src, pending := rest, reads := s.reads, mirrorReads := s.mirrorReads }

/-- The model's form of R281, by which the block in `IDLE` does nothing until the host writes `CMD`: a step with no action of
the host changes nothing. That there is such a step is the model's (log entry 23); the action `yield`, which gives the step to
the block, is the model's choice (log entry 5). -/
def Obligations.IdleBlockDoesNothing : Prop :=
  ∀ s : State, s.mode = .idle →
    (s.pending = [] → step s = .next s) ∧
    (∀ rest, s.pending = .yield :: rest → step s = .next { s with pending := rest })

/-! ## Rules of the whole machine -/

/-- R273: whichever step changes the `ERR` group, other than a `CLR_ERR`, a `SOFT_RESET` and the reset input, is a command in
`IDLE`, entered from no fault; it records its own opcode, and all other state is exactly as before. -/
def Obligations.FaultsArePrecise : Prop :=
  ∀ s t : State, step s = .next t → t.err ≠ s.err →
    (∀ w rest, s.pending = .wr 0 w :: rest → Claims.opc w ≠ 0x09 ∧ Claims.opc w ≠ 0x0A) →
    (∀ rest, s.pending ≠ .hardReset :: rest) →
    s.mode = .idle ∧ s.err.code = 0 ∧
    ∃ (w : Word) (rest : List HostAction) (k : ErrKind) (info : Nat), s.pending = .wr 0 w :: rest ∧ k.code ≠ 0 ∧
      t = { s with
        pending := rest
        err := { code := k.code, opc := BitVec.ofNat 8 (Claims.opc w), info := BitVec.ofNat 32 info } }

/-- R37, R274: a held fault is left unchanged by every step but a `CLR_ERR`, a `SOFT_RESET` and the reset input. -/
def Obligations.HeldFaultStays : Prop :=
  ∀ s t : State, step s = .next t → s.err.code ≠ 0 →
    (∀ w rest, s.pending = .wr 0 w :: rest → Claims.opc w ≠ 0x09 ∧ Claims.opc w ≠ 0x0A) →
    (∀ rest, s.pending ≠ .hardReset :: rest) →
    t.err = s.err

/-- R51, R67: no step but the reset input removes or changes a sample; a step emits at most one. -/
def Obligations.OutputIsAppendOnly : Prop :=
  ∀ s t : State, step s = .next t → (∀ rest, s.pending ≠ .hardReset :: rest) →
    t.out = s.out ∨ ∃ x : Half, t.out = s.out ++ [x] ∧ s.mode = .aduRun

/-- R68: no step but the host's own placing of a byte changes a byte of the source. -/
def Obligations.BlockWritesNoMemory : Prop :=
  ∀ s t : State, step s = .next t → (∀ a b rest, s.pending ≠ .srcPut a b :: rest) →
    ∀ a, t.src.read a = s.src.read a

/-- R33: sample steps and `ADU_START` change no cursor register; the cursor and table commands change no codec register. -/
def Obligations.UnitsAreDisjoint : Prop :=
  ∀ (i : Instr) (s t : State), exec i s = .next t →
    ((∃ k s0, i = .aduStart k s0) ∨ (Claims.codeBits i).isSome → t.bcu = s.bcu) ∧
    (i = .bcuInit ∨ (∃ n, i = .bcuRead n) ∨ (∃ n, i = .ltuT1 n ∨ i = .ltuT2 n ∨ i = .ltuT3 n ∨ i = .ltuLine n) →
      t.adu = s.adu ∧ t.out = s.out ∧ t.mode = s.mode)

/-- The invariant holds after reset. -/
def Obligations.ResetMeetsInvariant : Prop := State.reset.Inv

/-- R22, R23, R25, R27, R31, R145, R162, R169 g, R192, R261: every step keeps the invariant. -/
def Obligations.StepKeepsInvariant : Prop :=
  ∀ s t : State, s.Inv → step s = .next t → t.Inv

/-- R190, R260: from a state that meets the invariant no step stops with a fault, and the only refusal is the host's change
of a byte of the running track (R74). -/
def Obligations.SafeStatesNeverStop : Prop :=
  ∀ s : State, s.Inv →
    (∃ t, step s = .next t) ∨
    (step s = .refused .trackByteChangedDuringRun ∧ s.mode = .aduRun ∧ ∃ a b rest, s.pending = .srcPut a b :: rest)

/-! ## Runs -/

/-- R193: the machine started by `ADU_START k, s0` appends exactly the samples of the function `decode` to `OUT`, one a step,
and ends with its `pred`, `sidx` and `diff`, `NOUT` the number of samples, in `IDLE` with `DONE` set; on an absent track, whose
list of bytes is empty, with the command itself. -/
def Obligations.RunComputesDecode : Prop :=
  ∀ (s : State) (k : Fin 5) (s0 : Nat), Claims.AboutToStart s k s0 →
    let r := decodeTrack Config.tables (Claims.trackBytes s k) { pred := 0, sidx := s0, diff := 0 }
    ∃ t, Sys2Proof.core.run (1 + r.1.length) s = .next t ∧ t.out = s.out ++ r.1 ∧ t.adu.pred = r.2.pred ∧
      t.adu.sidx = r.2.sidx ∧ t.adu.diff = r.2.diff ∧ t.adu.nout = r.1.length ∧ t.mode = .idle ∧ t.done = true ∧
      t.pending = []

/-- R307: from any step boundary of a run the run ends, after at least a quarter and at most half as many steps as there are
bits left, one sample a step; so a track of `L` bytes takes between `2L` and `4L` steps. -/
def Obligations.RunsEnd : Prop :=
  ∀ s : State, s.Inv → s.mode = .aduRun → s.pending = [] →
    ∃ (n : Nat) (t : State),
      8 * s.trkLen[s.adu.atrk].toNat ≤ 4 * n + (8 * s.adu.bptr.toNat + s.adu.bitpos) ∧
      2 * n + (8 * s.adu.bptr.toNat + s.adu.bitpos) ≤ 8 * s.trkLen[s.adu.atrk].toNat ∧
      Sys2Proof.core.run n s = .next t ∧ t.mode = .idle ∧ t.done = true ∧ t.adu.nout = s.adu.nout + n ∧
      t.adu.bptr = s.trkLen[s.adu.atrk] ∧ t.adu.bitpos = 0 ∧ t.adu.cur = 0

/-- R191, R302: the samples of a run are a function of the track's bytes and the initial step index alone: two machines that
start the same bytes with the same index, whatever else they hold, are at every moment equally far and have emitted the same
samples. -/
def Obligations.RunsDependOnTrackOnly : Prop :=
  ∀ (s u : State) (k l : Fin 5) (s0 : Nat), Claims.AboutToStart s k s0 → Claims.AboutToStart u l s0 →
    Claims.trackBytes s k = Claims.trackBytes u l →
    ∀ (n : Nat) (t v : State), Sys2Proof.core.run (1 + n) s = .next t → Sys2Proof.core.run (1 + n) u = .next v →
      t.mode = v.mode ∧ t.adu = { v.adu with atrk := k } ∧ ∃ e : List Half, t.out = s.out ++ e ∧ v.out = u.out ++ e

/-- R194: only `PRED mod 4096` shows in `OUT`: changing `PRED` by a multiple of 4096 changes no sample of what follows. -/
def Obligations.OnlyPredMod4096Shows : Prop :=
  ∀ (s : State) (z : Int) (n : Nat) (t : State), s.pending = [] → Sys2Proof.core.run n s = .next t →
    ∃ t', Sys2Proof.core.run n (Claims.withPred s (s.adu.pred + 4096 * z)) = .next t' ∧ t'.out = t.out ∧
      t'.adu.pred = t.adu.pred + 4096 * z ∧ t'.mode = t.mode

/-- R195 for a track of any length: zero bytes from step index 0 give four samples `0x0000` for each byte and leave `PRED`,
`SIDX` and `DIFF` at 0. Of the open tables only `STEP_TABLE[0] = 7` is used. -/
def Obligations.ZeroTrackIsSilent : Prop :=
  ∀ (s : State) (k : Fin 5), Claims.AboutToStart s k 0 → (∀ b ∈ Claims.trackBytes s k, b = 0) →
    ∃ t, Sys2Proof.core.run (1 + 4 * s.trkLen[k].toNat) s = .next t ∧
      t.out = s.out ++ List.replicate (4 * s.trkLen[k].toNat) 0 ∧ t.adu.pred = 0 ∧ t.adu.sidx = 0 ∧ t.adu.diff = 0 ∧
      t.mode = .idle ∧ t.done = true

/-! ## Which command a word is; the output as bytes -/

/-- R97, R98: the command and the operand fields that each defined opcode selects, for every word with that opcode: `A[7:0]`
and `A[15:8]` of `ADU_START`, `A[7:0]` of `BCU_READ`, `A[15:0]` of a lookup; and the instruction of every code. -/
def Obligations.OpcodeSelectsInstruction : Prop :=
  (∀ w : Word,
    (Claims.opc w = 0x00 → decode (.cw w) = .ok .nop) ∧
    (Claims.opc w = 0x01 → decode (.cw w) = .ok (.aduStart (w.toNat % 2 ^ 8) (w.toNat / 2 ^ 8 % 2 ^ 8))) ∧
    (Claims.opc w = 0x02 → decode (.cw w) = .ok .bcuInit) ∧
    (Claims.opc w = 0x03 → decode (.cw w) = .ok (.bcuRead (w.toNat % 2 ^ 8))) ∧
    (Claims.opc w = 0x04 → decode (.cw w) = .ok (.ltuT1 (w.toNat % 2 ^ 16))) ∧
    (Claims.opc w = 0x05 → decode (.cw w) = .ok (.ltuT2 (w.toNat % 2 ^ 16))) ∧
    (Claims.opc w = 0x06 → decode (.cw w) = .ok (.ltuT3 (w.toNat % 2 ^ 16))) ∧
    (Claims.opc w = 0x07 → decode (.cw w) = .ok (.ltuLine (w.toNat % 2 ^ 16))) ∧
    (Claims.opc w = 0x08 → decode (.cw w) = .ok .lduDecode) ∧
    (Claims.opc w = 0x09 → decode (.cw w) = .ok .clrErr) ∧
    (Claims.opc w = 0x0A → decode (.cw w) = .ok .softReset)) ∧
  (∀ c : BitVec 2, (decode (.s2 c)).toOption = Claims.twoBitCodes[c.toNat]?) ∧
  ∀ c : BitVec 4, (decode (.s4 c)).toOption = Claims.fourBitCodes[c.toNat]?

/-- R62 b, R67: laid out as bytes, `OUT` has sample `j` in bytes `2j` and `2j + 1`, low byte first, and no other byte; a step
other than the reset input keeps the bytes there are, and puts a sample it emits behind them as two bytes, low byte first. -/
def Obligations.OutputBytesAreLittleEndian : Prop :=
  (∀ s : State, s.outBytes.length = 2 * s.out.length ∧
    ∀ (j : Nat) (x : Half), s.out[j]? = some x →
      ∃ lo hi : Byte, s.outBytes[2 * j]? = some lo ∧ s.outBytes[2 * j + 1]? = some hi ∧
        x.toNat = lo.toNat + 256 * hi.toNat) ∧
  ∀ s t : State, step s = .next t → (∀ rest, s.pending ≠ .hardReset :: rest) →
    (t.out = s.out ∧ t.outBytes = s.outBytes) ∨
    ∃ (x : Half) (lo hi : Byte), t.out = s.out ++ [x] ∧ t.outBytes = s.outBytes ++ [lo, hi] ∧
      x.toNat = lo.toNat + 256 * hi.toNat
end

