-- ==== Sys2Proof/Laws/Arith.lean ====
section
/-! SUPPORT. Laws of the shared arithmetic: `clamp` (R11) and the emitted sample (R166, R169). -/

namespace Sys2Proof.Machine

theorem clamp_eq_max_min (v lo hi : Int) (h : lo ≤ hi) : clamp v lo hi = max lo (min hi v) := by
  unfold clamp; split
  · omega
  · split <;> omega

theorem le_clamp (v lo hi : Int) (h : lo ≤ hi) : lo ≤ clamp v lo hi := by
  rw [clamp_eq_max_min v lo hi h]; exact le_max_left _ _

theorem clamp_le (v lo hi : Int) (h : lo ≤ hi) : clamp v lo hi ≤ hi := by
  rw [clamp_eq_max_min v lo hi h]; omega

/-- The sample as a number: `(PRED * 16) mod 65536` with the non-negative remainder. -/
theorem sampleOf_toNat (p : Int) : ((sampleOf p).toNat : Int) = (p * 16) % 65536 := by
  simp only [sampleOf, Config.outScale, BitVec.toNat_ofInt]
  have : (0 : Int) ≤ (p * 16) % 65536 := Int.emod_nonneg _ (by decide)
  simpa using Int.toNat_of_nonneg this

/-- R169 g: every sample is a multiple of 16. -/
theorem sampleOf_scaled (p : Int) : (sampleOf p).toNat % 16 = 0 := by
  have := sampleOf_toNat p; omega

/-- R194: a sample depends on `PRED mod 4096` only. -/
theorem sampleOf_add_4096 (p z : Int) : sampleOf (p + 4096 * z) = sampleOf p := by
  apply BitVec.eq_of_toNat_eq
  have h := sampleOf_toNat p
  have h' := sampleOf_toNat (p + 4096 * z)
  omega

end Sys2Proof.Machine
end

