-- ==== Sys2Proof/Laws/Memory.lean ====
section
/-! SUPPORT. Laws of the source memory: read after put, and that a put keeps the canonical form. -/

namespace Sys2Proof.Machine

/-- The canonical form as a proposition. -/
theorem Memory.wf_iff (m : Memory) :
    m.wf = true ↔ m.cells.Pairwise (fun x y => x.1 < y.1) ∧ ∀ c ∈ m.cells, c.1 < 2 ^ 32 ∧ c.2 ≠ unplacedByte := by
  simp [Memory.wf]

theorem lookupCell_of_lt (a : Nat) (l : List Host.Cell) (h : ∀ c ∈ l, a < c.1) : lookupCell a l = unplacedByte := by
  induction l with
  | nil => rfl
  | cons c r ih =>
    have hc := h c (by simp)
    simp only [lookupCell]
    rw [if_neg (by omega), ih fun x hx => h x (by simp [hx])]

theorem lookup_insertCell (a : Nat) (b : Byte) (l : List Host.Cell) (x : Nat) :
    lookupCell x (insertCell a b l) = if x = a then b else lookupCell x l := by
  induction l with
  | nil => simp only [insertCell, lookupCell, eq_comm]
  | cons c r ih =>
    simp only [insertCell]
    split
    · by_cases hx : x = a
      · subst hx; simp [lookupCell]
      · simp [lookupCell, hx, Ne.symm hx]
    · split
      · rename_i h
        by_cases hx : x = a
        · subst hx; simp [lookupCell]
        · have hc : c.1 ≠ x := fun e => hx (e.symm.trans h.symm)
          simp [lookupCell, hx, Ne.symm hx, hc]
      · rename_i h
        simp only [lookupCell, ih]
        by_cases hx : x = a
        · subst hx; simp [Ne.symm h]
        · simp [hx]

theorem lookup_eraseCell (a : Nat) (l : List Host.Cell) (h : l.Pairwise fun x y => x.1 < y.1) (x : Nat) :
    lookupCell x (eraseCell a l) = if x = a then unplacedByte else lookupCell x l := by
  induction l with
  | nil => simp [eraseCell, lookupCell]
  | cons c r ih =>
    obtain ⟨h1, h2⟩ := List.pairwise_cons.1 h
    simp only [eraseCell]
    split
    · rename_i hc; subst hc
      by_cases hx : x = c.1
      · subst hx; rw [if_pos rfl, lookupCell_of_lt _ _ h1]
      · rw [if_neg hx]; simp [lookupCell, Ne.symm hx]
    · rename_i hc
      simp only [lookupCell, ih h2]
      by_cases hx : x = a
      · subst hx; simp [Ne.symm hc]
      · simp [hx]

theorem mem_insertCell {a : Nat} {b : Byte} {l : List Host.Cell} {c : Host.Cell} (h : c ∈ insertCell a b l) :
    c = (a, b) ∨ c ∈ l := by
  induction l with
  | nil => simpa [insertCell] using h
  | cons d r ih =>
    simp only [insertCell] at h
    split at h
    · simpa using h
    · split at h
      · rcases List.mem_cons.1 h with h | h <;> simp [h]
      · rcases List.mem_cons.1 h with h | h
        · simp [h]
        · rcases ih h with h | h <;> simp [h]

theorem mem_eraseCell {a : Nat} {l : List Host.Cell} {c : Host.Cell} (h : c ∈ eraseCell a l) : c ∈ l := by
  induction l with
  | nil => simp [eraseCell] at h
  | cons d r ih =>
    simp only [eraseCell] at h
    split at h
    · simp [h]
    · rcases List.mem_cons.1 h with h | h
      · simp [h]
      · simp [ih h]

theorem insertCell_rising (a : Nat) (b : Byte) (l : List Host.Cell) (h : l.Pairwise fun x y => x.1 < y.1) :
    (insertCell a b l).Pairwise fun x y => x.1 < y.1 := by
  induction l with
  | nil => simp [insertCell]
  | cons c r ih =>
    obtain ⟨h1, h2⟩ := List.pairwise_cons.1 h
    simp only [insertCell]
    split
    · rename_i hc
      refine List.pairwise_cons.2 ⟨fun x hx => ?_, h⟩
      rcases List.mem_cons.1 hx with hx | hx
      · simpa [hx] using hc
      · have := h1 x hx; simp only; omega
    · split
      · rename_i hc
        exact List.pairwise_cons.2 ⟨fun x hx => by have := h1 x hx; simp only; omega, h2⟩
      · refine List.pairwise_cons.2 ⟨fun x hx => ?_, ih h2⟩
        rcases mem_insertCell hx with hx | hx
        · subst hx; simp only; omega
        · exact h1 x hx

theorem eraseCell_rising (a : Nat) (l : List Host.Cell) (h : l.Pairwise fun x y => x.1 < y.1) :
    (eraseCell a l).Pairwise fun x y => x.1 < y.1 := by
  induction l with
  | nil => simp [eraseCell]
  | cons c r ih =>
    obtain ⟨h1, h2⟩ := List.pairwise_cons.1 h
    simp only [eraseCell]
    split
    · exact h2
    · exact List.pairwise_cons.2 ⟨fun x hx => h1 x (mem_eraseCell hx), ih h2⟩

/-- A put keeps the canonical form. -/
theorem Memory.put_wf (m : Memory) (a : Nat) (b : Byte) (ha : a < 2 ^ 32) (h : m.wf = true) : (m.put a b).wf = true := by
  rw [Memory.wf_iff] at h ⊢
  simp only [Memory.put]
  split
  · exact ⟨eraseCell_rising _ _ h.1, fun c hc => h.2 c (mem_eraseCell hc)⟩
  · rename_i hb
    refine ⟨insertCell_rising _ _ _ h.1, fun c hc => ?_⟩
    rcases mem_insertCell hc with rfl | hc
    · exact ⟨ha, hb⟩
    · exact h.2 c hc

/-- R61: a read after a put gives the byte put at its address, and every other address reads as before. -/
theorem Memory.read_put (m : Memory) (a : Nat) (b : Byte) (h : m.wf = true) (x : Nat) :
    (m.put a b).read x = if x = a then b else m.read x := by
  rw [Memory.wf_iff] at h
  simp only [Memory.read, Memory.put]
  split
  · rename_i hb; rw [lookup_eraseCell _ _ h.1, hb]
  · exact lookup_insertCell _ _ _ _

/-! ### `MemRead` (R61) -/

theorem memRead1_inside (s : State) (addr : Nat) (h : addr + 1 ≤ s.srcSize.toNat) :
    memRead1 s addr = some (s.src.read addr) := by
  simp only [memRead1]; rw [if_neg (by omega)]

theorem memRead1_outside (s : State) (addr : Nat) (h : s.srcSize.toNat < addr + 1) : memRead1 s addr = none := if_pos h

theorem memRead2_inside (s : State) (addr : Nat) (h : addr + 2 ≤ s.srcSize.toNat) :
    memRead2 s addr = some (s.src.read (addr + 1) ++ s.src.read addr) := by
  simp only [memRead2]; rw [if_neg (by omega)]

theorem memRead2_outside (s : State) (addr : Nat) (h : s.srcSize.toNat < addr + 2) : memRead2 s addr = none := if_pos h

/-- R62: the byte at the lower address is the low one. -/
theorem append_toNat (hi lo : Byte) : (hi ++ lo).toNat = lo.toNat + 256 * hi.toNat := by
  rw [BitVec.toNat_append, Nat.shiftLeft_eq, Nat.mul_comm, ← Nat.two_pow_add_eq_or_of_lt lo.isLt]
  omega

end Sys2Proof.Machine
end

