-- ==== Sys2Proof/Laws/State.lean ====
section
/-! SUPPORT. One lemma for each field of each update of the state, true by rfl. -/

namespace Sys2Proof.Machine

/-! ### Fault entry and return (R273, R274) -/

@[simp] theorem raiseErr_adu (k : ErrKind) (o : Byte) (n : Nat) (s : State) : (raiseErr k o n s).adu = s.adu := rfl
@[simp] theorem raiseErr_bcu (k : ErrKind) (o : Byte) (n : Nat) (s : State) : (raiseErr k o n s).bcu = s.bcu := rfl
@[simp] theorem raiseErr_mode (k : ErrKind) (o : Byte) (n : Nat) (s : State) : (raiseErr k o n s).mode = s.mode := rfl
@[simp] theorem raiseErr_arg (k : ErrKind) (o : Byte) (n : Nat) (s : State) : (raiseErr k o n s).arg = s.arg := rfl
@[simp] theorem raiseErr_srcSize (k : ErrKind) (o : Byte) (n : Nat) (s : State) : (raiseErr k o n s).srcSize = s.srcSize := rfl
@[simp] theorem raiseErr_trkBase (k : ErrKind) (o : Byte) (n : Nat) (s : State) : (raiseErr k o n s).trkBase = s.trkBase := rfl
@[simp] theorem raiseErr_trkLen (k : ErrKind) (o : Byte) (n : Nat) (s : State) : (raiseErr k o n s).trkLen = s.trkLen := rfl
@[simp] theorem raiseErr_done (k : ErrKind) (o : Byte) (n : Nat) (s : State) : (raiseErr k o n s).done = s.done := rfl
@[simp] theorem raiseErr_empty (k : ErrKind) (o : Byte) (n : Nat) (s : State) : (raiseErr k o n s).empty = s.empty := rfl
@[simp] theorem raiseErr_err (k : ErrKind) (o : Byte) (n : Nat) (s : State) : (raiseErr k o n s).err = { code := k.code, opc := o, info := BitVec.ofNat 32 n } := rfl
@[simp] theorem raiseErr_result (k : ErrKind) (o : Byte) (n : Nat) (s : State) : (raiseErr k o n s).result = s.result := rfl
@[simp] theorem raiseErr_resultHi (k : ErrKind) (o : Byte) (n : Nat) (s : State) : (raiseErr k o n s).resultHi = s.resultHi := rfl
@[simp] theorem raiseErr_out (k : ErrKind) (o : Byte) (n : Nat) (s : State) : (raiseErr k o n s).out = s.out := rfl
@[simp] theorem raiseErr_src (k : ErrKind) (o : Byte) (n : Nat) (s : State) : (raiseErr k o n s).src = s.src := rfl
@[simp] theorem raiseErr_pending (k : ErrKind) (o : Byte) (n : Nat) (s : State) : (raiseErr k o n s).pending = s.pending := rfl
@[simp] theorem raiseErr_reads (k : ErrKind) (o : Byte) (n : Nat) (s : State) : (raiseErr k o n s).reads = s.reads := rfl
@[simp] theorem raiseErr_history (k : ErrKind) (o : Byte) (n : Nat) (s : State) : (raiseErr k o n s).history = s.history := rfl
@[simp] theorem raiseErr_mirrorReads (k : ErrKind) (o : Byte) (n : Nat) (s : State) : (raiseErr k o n s).mirrorReads = s.mirrorReads := rfl

/-! ### `clearErr` -/

@[simp] theorem clearErr_adu (s : State) : (clearErr s).adu = s.adu := rfl
@[simp] theorem clearErr_bcu (s : State) : (clearErr s).bcu = s.bcu := rfl
@[simp] theorem clearErr_mode (s : State) : (clearErr s).mode = s.mode := rfl
@[simp] theorem clearErr_arg (s : State) : (clearErr s).arg = s.arg := rfl
@[simp] theorem clearErr_srcSize (s : State) : (clearErr s).srcSize = s.srcSize := rfl
@[simp] theorem clearErr_trkBase (s : State) : (clearErr s).trkBase = s.trkBase := rfl
@[simp] theorem clearErr_trkLen (s : State) : (clearErr s).trkLen = s.trkLen := rfl
@[simp] theorem clearErr_done (s : State) : (clearErr s).done = s.done := rfl
@[simp] theorem clearErr_empty (s : State) : (clearErr s).empty = s.empty := rfl
@[simp] theorem clearErr_err (s : State) : (clearErr s).err = ErrGroup.none := rfl
@[simp] theorem clearErr_result (s : State) : (clearErr s).result = s.result := rfl
@[simp] theorem clearErr_resultHi (s : State) : (clearErr s).resultHi = s.resultHi := rfl
@[simp] theorem clearErr_out (s : State) : (clearErr s).out = s.out := rfl
@[simp] theorem clearErr_src (s : State) : (clearErr s).src = s.src := rfl
@[simp] theorem clearErr_pending (s : State) : (clearErr s).pending = s.pending := rfl
@[simp] theorem clearErr_reads (s : State) : (clearErr s).reads = s.reads := rfl
@[simp] theorem clearErr_history (s : State) : (clearErr s).history = s.history := rfl
@[simp] theorem clearErr_mirrorReads (s : State) : (clearErr s).mirrorReads = s.mirrorReads := rfl

/-! ### Reset (R52) -/

@[simp] theorem resetBlock_adu (o : List Half) (s : State) : (resetBlock o s).adu = State.reset.adu := rfl
@[simp] theorem resetBlock_bcu (o : List Half) (s : State) : (resetBlock o s).bcu = State.reset.bcu := rfl
@[simp] theorem resetBlock_mode (o : List Half) (s : State) : (resetBlock o s).mode = State.reset.mode := rfl
@[simp] theorem resetBlock_arg (o : List Half) (s : State) : (resetBlock o s).arg = State.reset.arg := rfl
@[simp] theorem resetBlock_srcSize (o : List Half) (s : State) : (resetBlock o s).srcSize = State.reset.srcSize := rfl
@[simp] theorem resetBlock_trkBase (o : List Half) (s : State) : (resetBlock o s).trkBase = State.reset.trkBase := rfl
@[simp] theorem resetBlock_trkLen (o : List Half) (s : State) : (resetBlock o s).trkLen = State.reset.trkLen := rfl
@[simp] theorem resetBlock_done (o : List Half) (s : State) : (resetBlock o s).done = State.reset.done := rfl
@[simp] theorem resetBlock_empty (o : List Half) (s : State) : (resetBlock o s).empty = State.reset.empty := rfl
@[simp] theorem resetBlock_err (o : List Half) (s : State) : (resetBlock o s).err = State.reset.err := rfl
@[simp] theorem resetBlock_result (o : List Half) (s : State) : (resetBlock o s).result = State.reset.result := rfl
@[simp] theorem resetBlock_resultHi (o : List Half) (s : State) : (resetBlock o s).resultHi = State.reset.resultHi := rfl
@[simp] theorem resetBlock_out (o : List Half) (s : State) : (resetBlock o s).out = o := rfl
@[simp] theorem resetBlock_src (o : List Half) (s : State) : (resetBlock o s).src = s.src := rfl
@[simp] theorem resetBlock_pending (o : List Half) (s : State) : (resetBlock o s).pending = s.pending := rfl
@[simp] theorem resetBlock_reads (o : List Half) (s : State) : (resetBlock o s).reads = s.reads := rfl
@[simp] theorem resetBlock_history (o : List Half) (s : State) : (resetBlock o s).history = State.reset.history := rfl
@[simp] theorem resetBlock_mirrorReads (o : List Half) (s : State) : (resetBlock o s).mirrorReads = s.mirrorReads := rfl

/-! ### The flags of a start (R234) -/

@[simp] theorem startEmpty_adu (s : State) : (startEmpty s).adu = s.adu := rfl
@[simp] theorem startEmpty_bcu (s : State) : (startEmpty s).bcu = s.bcu := rfl
@[simp] theorem startEmpty_mode (s : State) : (startEmpty s).mode = s.mode := rfl
@[simp] theorem startEmpty_arg (s : State) : (startEmpty s).arg = s.arg := rfl
@[simp] theorem startEmpty_srcSize (s : State) : (startEmpty s).srcSize = s.srcSize := rfl
@[simp] theorem startEmpty_trkBase (s : State) : (startEmpty s).trkBase = s.trkBase := rfl
@[simp] theorem startEmpty_trkLen (s : State) : (startEmpty s).trkLen = s.trkLen := rfl
@[simp] theorem startEmpty_done (s : State) : (startEmpty s).done = true := rfl
@[simp] theorem startEmpty_empty (s : State) : (startEmpty s).empty = true := rfl
@[simp] theorem startEmpty_err (s : State) : (startEmpty s).err = s.err := rfl
@[simp] theorem startEmpty_result (s : State) : (startEmpty s).result = s.result := rfl
@[simp] theorem startEmpty_resultHi (s : State) : (startEmpty s).resultHi = s.resultHi := rfl
@[simp] theorem startEmpty_out (s : State) : (startEmpty s).out = s.out := rfl
@[simp] theorem startEmpty_src (s : State) : (startEmpty s).src = s.src := rfl
@[simp] theorem startEmpty_pending (s : State) : (startEmpty s).pending = s.pending := rfl
@[simp] theorem startEmpty_reads (s : State) : (startEmpty s).reads = s.reads := rfl
@[simp] theorem startEmpty_history (s : State) : (startEmpty s).history = s.history := rfl
@[simp] theorem startEmpty_mirrorReads (s : State) : (startEmpty s).mirrorReads = s.mirrorReads := rfl

/-! ### `startRun` -/

@[simp] theorem startRun_adu (s : State) : (startRun s).adu = s.adu := rfl
@[simp] theorem startRun_bcu (s : State) : (startRun s).bcu = s.bcu := rfl
@[simp] theorem startRun_mode (s : State) : (startRun s).mode = .aduRun := rfl
@[simp] theorem startRun_arg (s : State) : (startRun s).arg = s.arg := rfl
@[simp] theorem startRun_srcSize (s : State) : (startRun s).srcSize = s.srcSize := rfl
@[simp] theorem startRun_trkBase (s : State) : (startRun s).trkBase = s.trkBase := rfl
@[simp] theorem startRun_trkLen (s : State) : (startRun s).trkLen = s.trkLen := rfl
@[simp] theorem startRun_done (s : State) : (startRun s).done = false := rfl
@[simp] theorem startRun_empty (s : State) : (startRun s).empty = false := rfl
@[simp] theorem startRun_err (s : State) : (startRun s).err = s.err := rfl
@[simp] theorem startRun_result (s : State) : (startRun s).result = s.result := rfl
@[simp] theorem startRun_resultHi (s : State) : (startRun s).resultHi = s.resultHi := rfl
@[simp] theorem startRun_out (s : State) : (startRun s).out = s.out := rfl
@[simp] theorem startRun_src (s : State) : (startRun s).src = s.src := rfl
@[simp] theorem startRun_pending (s : State) : (startRun s).pending = s.pending := rfl
@[simp] theorem startRun_reads (s : State) : (startRun s).reads = s.reads := rfl
@[simp] theorem startRun_history (s : State) : (startRun s).history = [] := rfl
@[simp] theorem startRun_mirrorReads (s : State) : (startRun s).mirrorReads = s.mirrorReads := rfl

/-! ### The end of a run (R168) -/

@[simp] theorem endRun_adu (s : State) : (endRun s).adu = s.adu := rfl
@[simp] theorem endRun_bcu (s : State) : (endRun s).bcu = s.bcu := rfl
@[simp] theorem endRun_mode (s : State) : (endRun s).mode = .idle := rfl
@[simp] theorem endRun_arg (s : State) : (endRun s).arg = s.arg := rfl
@[simp] theorem endRun_srcSize (s : State) : (endRun s).srcSize = s.srcSize := rfl
@[simp] theorem endRun_trkBase (s : State) : (endRun s).trkBase = s.trkBase := rfl
@[simp] theorem endRun_trkLen (s : State) : (endRun s).trkLen = s.trkLen := rfl
@[simp] theorem endRun_done (s : State) : (endRun s).done = true := rfl
@[simp] theorem endRun_empty (s : State) : (endRun s).empty = s.empty := rfl
@[simp] theorem endRun_err (s : State) : (endRun s).err = s.err := rfl
@[simp] theorem endRun_result (s : State) : (endRun s).result = s.result := rfl
@[simp] theorem endRun_resultHi (s : State) : (endRun s).resultHi = s.resultHi := rfl
@[simp] theorem endRun_out (s : State) : (endRun s).out = s.out := rfl
@[simp] theorem endRun_src (s : State) : (endRun s).src = s.src := rfl
@[simp] theorem endRun_pending (s : State) : (endRun s).pending = s.pending := rfl
@[simp] theorem endRun_reads (s : State) : (endRun s).reads = s.reads := rfl
@[simp] theorem endRun_history (s : State) : (endRun s).history = [] := rfl
@[simp] theorem endRun_mirrorReads (s : State) : (endRun s).mirrorReads = s.mirrorReads := rfl

/-! ### Delivering bits (R142) -/

@[simp] theorem deliver_adu (n : Nat) (b : Bcu) (s : State) : (deliver n b s).adu = s.adu := rfl
@[simp] theorem deliver_bcu (n : Nat) (b : Bcu) (s : State) : (deliver n b s).bcu = afterExtract n b := rfl
@[simp] theorem deliver_mode (n : Nat) (b : Bcu) (s : State) : (deliver n b s).mode = s.mode := rfl
@[simp] theorem deliver_arg (n : Nat) (b : Bcu) (s : State) : (deliver n b s).arg = s.arg := rfl
@[simp] theorem deliver_srcSize (n : Nat) (b : Bcu) (s : State) : (deliver n b s).srcSize = s.srcSize := rfl
@[simp] theorem deliver_trkBase (n : Nat) (b : Bcu) (s : State) : (deliver n b s).trkBase = s.trkBase := rfl
@[simp] theorem deliver_trkLen (n : Nat) (b : Bcu) (s : State) : (deliver n b s).trkLen = s.trkLen := rfl
@[simp] theorem deliver_done (n : Nat) (b : Bcu) (s : State) : (deliver n b s).done = s.done := rfl
@[simp] theorem deliver_empty (n : Nat) (b : Bcu) (s : State) : (deliver n b s).empty = s.empty := rfl
@[simp] theorem deliver_err (n : Nat) (b : Bcu) (s : State) : (deliver n b s).err = s.err := rfl
@[simp] theorem deliver_result (n : Nat) (b : Bcu) (s : State) : (deliver n b s).result = extractBits n b := rfl
@[simp] theorem deliver_resultHi (n : Nat) (b : Bcu) (s : State) : (deliver n b s).resultHi = 0 := rfl
@[simp] theorem deliver_out (n : Nat) (b : Bcu) (s : State) : (deliver n b s).out = s.out := rfl
@[simp] theorem deliver_src (n : Nat) (b : Bcu) (s : State) : (deliver n b s).src = s.src := rfl
@[simp] theorem deliver_pending (n : Nat) (b : Bcu) (s : State) : (deliver n b s).pending = s.pending := rfl
@[simp] theorem deliver_reads (n : Nat) (b : Bcu) (s : State) : (deliver n b s).reads = s.reads := rfl
@[simp] theorem deliver_history (n : Nat) (b : Bcu) (s : State) : (deliver n b s).history = s.history := rfl
@[simp] theorem deliver_mirrorReads (n : Nat) (b : Bcu) (s : State) : (deliver n b s).mirrorReads = s.mirrorReads := rfl

/-! ### Taking a code (R163) -/

@[simp] theorem consume_pred (w : Nat) (b : Byte) (a : Adu) : (consume w b a).pred = a.pred := rfl
@[simp] theorem consume_sidx (w : Nat) (b : Byte) (a : Adu) : (consume w b a).sidx = a.sidx := rfl
@[simp] theorem consume_diff (w : Nat) (b : Byte) (a : Adu) : (consume w b a).diff = a.diff := rfl
@[simp] theorem consume_cur (w : Nat) (b : Byte) (a : Adu) : (consume w b a).cur = b >>> w := rfl
@[simp] theorem consume_bitpos (w : Nat) (b : Byte) (a : Adu) : (consume w b a).bitpos = a.bitpos := rfl
@[simp] theorem consume_bptr (w : Nat) (b : Byte) (a : Adu) : (consume w b a).bptr = a.bptr := rfl
@[simp] theorem consume_nout (w : Nat) (b : Byte) (a : Adu) : (consume w b a).nout = a.nout := rfl
@[simp] theorem consume_atrk (w : Nat) (b : Byte) (a : Adu) : (consume w b a).atrk = a.atrk := rfl

/-! ### The common tail (R166) -/

@[simp] theorem codecTail_pred (d x : Int) (a : Adu) : (codecTail d x a).pred = a.pred + clamp d Config.diffMin Config.diffMax := rfl
@[simp] theorem codecTail_sidx (d x : Int) (a : Adu) : (codecTail d x a).sidx = (clamp x 0 Config.sidxMax).toNat := rfl
@[simp] theorem codecTail_diff (d x : Int) (a : Adu) : (codecTail d x a).diff = clamp d Config.diffMin Config.diffMax := rfl
@[simp] theorem codecTail_cur (d x : Int) (a : Adu) : (codecTail d x a).cur = a.cur := rfl
@[simp] theorem codecTail_bitpos (d x : Int) (a : Adu) : (codecTail d x a).bitpos = a.bitpos := rfl
@[simp] theorem codecTail_bptr (d x : Int) (a : Adu) : (codecTail d x a).bptr = a.bptr := rfl
@[simp] theorem codecTail_nout (d x : Int) (a : Adu) : (codecTail d x a).nout = a.nout + 1 := rfl
@[simp] theorem codecTail_atrk (d x : Int) (a : Adu) : (codecTail d x a).atrk = a.atrk := rfl

/-! ### `Extract` (R144) -/

@[simp] theorem afterExtract_bval (n : Nat) (b : Bcu) : (afterExtract n b).bval = b.bval >>> n := rfl
@[simp] theorem afterExtract_bidx (n : Nat) (b : Bcu) : (afterExtract n b).bidx = b.bidx + n := rfl
@[simp] theorem afterExtract_bwp (n : Nat) (b : Bcu) : (afterExtract n b).bwp = b.bwp := rfl

/-! ### The advance (R167): what it never touches -/

@[simp] theorem advance_pred (w : Nat) (a : Adu) : (advance w a).pred = a.pred := by unfold advance; split <;> rfl
@[simp] theorem advance_sidx (w : Nat) (a : Adu) : (advance w a).sidx = a.sidx := by unfold advance; split <;> rfl
@[simp] theorem advance_diff (w : Nat) (a : Adu) : (advance w a).diff = a.diff := by unfold advance; split <;> rfl
@[simp] theorem advance_cur (w : Nat) (a : Adu) : (advance w a).cur = a.cur := by unfold advance; split <;> rfl
@[simp] theorem advance_nout (w : Nat) (a : Adu) : (advance w a).nout = a.nout := by unfold advance; split <;> rfl
@[simp] theorem advance_atrk (w : Nat) (a : Adu) : (advance w a).atrk = a.atrk := by unfold advance; split <;> rfl

/-! ### A sample step's update of the state (R166, R168): what does not depend on whether the run ends -/

@[simp] theorem emitSample_adu (a : Adu) (s : State) : (emitSample a s).adu = a := by
  unfold emitSample; simp only; split <;> rfl
@[simp] theorem emitSample_bcu (a : Adu) (s : State) : (emitSample a s).bcu = s.bcu := by
  unfold emitSample; simp only; split <;> rfl
@[simp] theorem emitSample_arg (a : Adu) (s : State) : (emitSample a s).arg = s.arg := by
  unfold emitSample; simp only; split <;> rfl
@[simp] theorem emitSample_srcSize (a : Adu) (s : State) : (emitSample a s).srcSize = s.srcSize := by
  unfold emitSample; simp only; split <;> rfl
@[simp] theorem emitSample_trkBase (a : Adu) (s : State) : (emitSample a s).trkBase = s.trkBase := by
  unfold emitSample; simp only; split <;> rfl
@[simp] theorem emitSample_trkLen (a : Adu) (s : State) : (emitSample a s).trkLen = s.trkLen := by
  unfold emitSample; simp only; split <;> rfl
@[simp] theorem emitSample_empty (a : Adu) (s : State) : (emitSample a s).empty = s.empty := by
  unfold emitSample; simp only; split <;> rfl
@[simp] theorem emitSample_err (a : Adu) (s : State) : (emitSample a s).err = s.err := by
  unfold emitSample; simp only; split <;> rfl
@[simp] theorem emitSample_result (a : Adu) (s : State) : (emitSample a s).result = s.result := by
  unfold emitSample; simp only; split <;> rfl
@[simp] theorem emitSample_resultHi (a : Adu) (s : State) : (emitSample a s).resultHi = s.resultHi := by
  unfold emitSample; simp only; split <;> rfl
@[simp] theorem emitSample_out (a : Adu) (s : State) : (emitSample a s).out = s.out ++ [sampleOf a.pred] := by
  unfold emitSample; simp only; split <;> rfl
@[simp] theorem emitSample_src (a : Adu) (s : State) : (emitSample a s).src = s.src := by
  unfold emitSample; simp only; split <;> rfl
@[simp] theorem emitSample_pending (a : Adu) (s : State) : (emitSample a s).pending = s.pending := by
  unfold emitSample; simp only; split <;> rfl
@[simp] theorem emitSample_reads (a : Adu) (s : State) : (emitSample a s).reads = s.reads := by
  unfold emitSample; simp only; split <;> rfl
@[simp] theorem emitSample_mirrorReads (a : Adu) (s : State) : (emitSample a s).mirrorReads = s.mirrorReads := by
  unfold emitSample; simp only; split <;> rfl

theorem emitSample_ended (a : Adu) (s : State) (h : runEnded a s = true) :
    (emitSample a s).mode = .idle ∧ (emitSample a s).done = true ∧ (emitSample a s).history = [] := by
  simp [emitSample, h]

theorem emitSample_goesOn (a : Adu) (s : State) (h : runEnded a s = false) :
    (emitSample a s).mode = s.mode ∧ (emitSample a s).done = s.done ∧
      (emitSample a s).history = s.adu :: s.history := by
  simp [emitSample, h]

/-! ### Fault codes (R261) -/

theorem ErrKind.code_ne_zero (k : ErrKind) : k.code ≠ 0 := by cases k <;> decide

theorem ErrKind.code_toNat_le (k : ErrKind) : k.code.toNat ≤ 7 := by cases k <;> decide

/-! ### The fault lock (R238) -/

theorem unlessFaulted_free (s s' : State) (h : s.err.code = 0) : unlessFaulted s s' = s' := if_pos h

theorem unlessFaulted_held (s s' : State) (h : s.err.code ≠ 0) : unlessFaulted s s' = s := if_neg h

end Sys2Proof.Machine
end

