-- ==== Sys2Proof/Laws/BitCursor.lean ====
section
/-! SUPPORT. Laws of the bit cursor: the refill (R143) and the extraction (R144) as numbers, the window's invariant (R145),
and when `BCU_READ` answers what (R142). -/

namespace Sys2Proof.Machine

/-- The word a refill at `BWP` fetches, as a number (R62). -/
def windowWord (s : State) : Nat :=
  (s.src.read s.bcu.bwp.toNat).toNat + 256 * (s.src.read (s.bcu.bwp.toNat + 1)).toNat

theorem windowWord_lt (s : State) : windowWord s < 2 ^ 16 := by
  have h1 := (s.src.read s.bcu.bwp.toNat).isLt
  have h2 := (s.src.read (s.bcu.bwp.toNat + 1)).isLt
  unfold windowWord; omega

/-- OR of a word above `k` bits that are all the low part has is a sum. -/
theorem or_shiftLeft_toNat (b : Word) (w : Half) (k : Nat) (hk : k ≤ 16) (hb : b.toNat < 2 ^ k) :
    (b ||| BitVec.shiftLeft (w.zeroExtend 32) k).toNat = b.toNat + 2 ^ k * w.toNat := by
  have hp : 2 ^ k ≤ 2 ^ 16 := Nat.pow_le_pow_right (by decide) hk
  have hw := w.isLt
  have hz : (w.zeroExtend 32).toNat = w.toNat := by
    simp only [BitVec.toNat_setWidth]; omega
  have hs : (BitVec.shiftLeft (w.zeroExtend 32) k).toNat = 2 ^ k * w.toNat := by
    rw [show BitVec.shiftLeft (w.zeroExtend 32) k = w.zeroExtend 32 <<< k from rfl, BitVec.toNat_shiftLeft, hz,
      Nat.shiftLeft_eq, Nat.mul_comm]
    apply Nat.mod_eq_of_lt
    calc 2 ^ k * w.toNat ≤ 2 ^ 16 * w.toNat := Nat.mul_le_mul_right _ hp
      _ < 2 ^ 32 := by omega
  rw [BitVec.toNat_or, hs, Nat.or_comm, ← Nat.two_pow_add_eq_or_of_lt hb]
  omega

/-- The refilled window as a number, where the window's invariant holds and the word is inside the source (R143, R145). -/
theorem refill_inside (s : State) (hi : s.bcu.Inv) (h1 : 1 ≤ s.bcu.bidx) (hs : s.bcu.bwp.toNat + 2 ≤ s.srcSize.toNat) :
    ∃ b, refill s = some b ∧ b.bidx = s.bcu.bidx - 16 ∧ b.bwp = s.bcu.bwp + 2 ∧
      b.bval.toNat = s.bcu.bval.toNat + 2 ^ (16 - s.bcu.bidx).toNat * windowWord s ∧
      b.bval.toNat < 2 ^ (16 + (16 - s.bcu.bidx).toNat) := by
  refine ⟨_, by rw [refill, memRead2_inside _ _ hs, Option.map_some], rfl, rfl, ?_, ?_⟩
  · simp only
    rw [or_shiftLeft_toNat _ _ _ (by have := hi.bidx_nonneg; omega) hi.bval_lt, append_toNat, windowWord]
  · simp only
    rw [or_shiftLeft_toNat _ _ _ (by have := hi.bidx_nonneg; omega) hi.bval_lt, append_toNat]
    have hw := windowWord_lt s
    have hb := hi.bval_lt
    unfold windowWord at hw
    rw [Nat.pow_add, Nat.mul_comm (2 ^ 16)]
    generalize 2 ^ (16 - s.bcu.bidx).toNat = p at *
    nlinarith

theorem refill_outside (s : State) (hs : s.srcSize.toNat < s.bcu.bwp.toNat + 2) : refill s = none := by
  rw [refill, memRead2_outside _ _ hs, Option.map_none]

/-- `BWP` after a refill does not wrap (R143). -/
theorem bwp_add_two (s : State) (hs : s.bcu.bwp.toNat + 2 ≤ s.srcSize.toNat) :
    (s.bcu.bwp + 2).toNat = s.bcu.bwp.toNat + 2 := by
  have := s.srcSize.isLt
  rw [BitVec.toNat_add]; simp; omega

/-- The delivered bits are the remainder of the window by `2^n` (R144). -/
theorem extractBits_toNat (n : Nat) (b : Bcu) (hn : n ≤ 16) : (extractBits n b).toNat = b.bval.toNat % 2 ^ n := by
  have hp : 2 ^ n ≤ 2 ^ 16 := Nat.pow_le_pow_right (by decide) hn
  have h1 : 0 < 2 ^ n := Nat.two_pow_pos n
  rw [extractBits, BitVec.toNat_and, BitVec.toNat_ofNat, Nat.mod_eq_of_lt (by omega), Nat.and_two_pow_sub_one_eq_mod]

/-- What is left in the window is the quotient (R144). -/
theorem afterExtract_bval_toNat (n : Nat) (b : Bcu) : (afterExtract n b).bval.toNat = b.bval.toNat / 2 ^ n := by
  rw [afterExtract_bval, BitVec.toNat_ushiftRight, Nat.shiftRight_eq_div_pow]

/-- Extraction gives a window that meets the invariant (R145). -/
theorem afterExtract_inv (n : Nat) (b : Bcu) (h0 : 0 ≤ b.bidx + n) (h16 : b.bidx + n ≤ 16)
    (hb : b.bval.toNat < 2 ^ (16 - b.bidx).toNat) : (afterExtract n b).Inv := by
  refine ⟨h0, h16, ?_⟩
  rw [afterExtract_bval_toNat, afterExtract_bidx]
  apply Nat.div_lt_of_lt_mul
  rw [← Nat.pow_add]
  refine lt_of_lt_of_le hb (Nat.pow_le_pow_right (by decide) (by omega))

/-! ### When `BCU_READ` answers what, with no fault held (R142) -/

theorem bcuRead_noRefill (n : Nat) (s : State) (h1 : 1 ≤ n) (h2 : n ≤ 16) (h : s.bcu.bidx + n ≤ 16) :
    bcuRead n s = deliver n s.bcu s := by
  rw [bcuRead, if_neg (by omega), if_neg (by omega)]

theorem bcuRead_refill (n : Nat) (s : State) (b : Bcu) (h1 : 1 ≤ n) (h2 : n ≤ 16) (h : 16 < s.bcu.bidx + n)
    (hb : refill s = some b) : bcuRead n s = deliver n b s := by
  rw [bcuRead, if_neg (by omega), if_pos (by omega), hb]

theorem bcuRead_badCount (n : Nat) (s : State) (h : n = 0 ∨ 17 ≤ n) :
    bcuRead n s = raiseErr .invalidBitCount 0x03 n s := by rw [bcuRead, if_pos (by omega)]

theorem bcuRead_ended (n : Nat) (s : State) (h1 : 1 ≤ n) (h2 : n ≤ 16) (h : 16 < s.bcu.bidx + n)
    (hb : refill s = none) : bcuRead n s = raiseErr .unexpectedEndOfStream 0x03 s.bcu.bwp.toNat s := by
  rw [bcuRead, if_neg (by omega), if_pos (by omega), hb]

end Sys2Proof.Machine
end

