-- ==== Sys2Proof/Laws/Decode.lean ====
section
/-! SUPPORT. Laws of the fields of a command word (R97): each field as a number, and the word `(OPC << 24) | A` as a
number. -/

namespace Sys2Proof

/-- A field is a quotient and a remainder of the word. -/
theorem field_toNat (w : Word) (lo len : Nat) : field w lo len = w.toNat / 2 ^ lo % 2 ^ len := by
  simp [field, BitVec.extractLsb'_toNat, Nat.shiftRight_eq_div_pow]

theorem opcodeOf_toNat (w : Word) : (opcodeOf w).toNat = w.toNat / 2 ^ 24 := by
  simp only [opcodeOf, BitVec.extractLsb'_toNat, Nat.shiftRight_eq_div_pow]
  have := w.isLt; omega

theorem append_toNat_add {n m : Nat} (x : BitVec n) (y : BitVec m) : (x ++ y).toNat = x.toNat * 2 ^ m + y.toNat := by
  rw [BitVec.toNat_append, ← Nat.shiftLeft_add_eq_or_of_lt y.isLt, Nat.shiftLeft_eq]

/-- The command word as a number. -/
theorem commandWord_toNat (o a2 a1 a0 : Nat) :
    (commandWord o a2 a1 a0).toNat = o % 256 * 2 ^ 24 + a2 % 256 * 2 ^ 16 + a1 % 256 * 2 ^ 8 + a0 % 256 := by
  unfold commandWord
  erw [append_toNat_add, append_toNat_add, append_toNat_add]
  simp only [BitVec.toNat_ofNat]
  omega

/-- A table lookup's word as a number. -/
theorem lookupWord_toNat (o i : Nat) (h : i < 65536) : (lookupWord o i).toNat = o % 256 * 2 ^ 24 + i := by
  rw [lookupWord, commandWord_toNat]; omega

/-- The decoder of command words, with the fields as numbers. -/
theorem decode_cw (w : Word) : decode (.cw w) = match w.toNat / 2 ^ 24 with
    | 0x00 => .ok .nop
    | 0x01 => .ok (.aduStart (w.toNat % 2 ^ 8) (w.toNat / 2 ^ 8 % 2 ^ 8))
    | 0x02 => .ok .bcuInit
    | 0x03 => .ok (.bcuRead (w.toNat % 2 ^ 8))
    | 0x04 => .ok (.ltuT1 (w.toNat % 2 ^ 16))
    | 0x05 => .ok (.ltuT2 (w.toNat % 2 ^ 16))
    | 0x06 => .ok (.ltuT3 (w.toNat % 2 ^ 16))
    | 0x07 => .ok (.ltuLine (w.toNat % 2 ^ 16))
    | 0x08 => .ok .lduDecode
    | 0x09 => .ok .clrErr
    | 0x0A => .ok .softReset
    | _ => .error (.reservedOpcode w) := by
  simp only [decode, decodeCommand, opcodeOf_toNat, field_toNat, Nat.pow_zero, Nat.div_one] <;> rfl

end Sys2Proof
end

