-- ==== Sys2Proof/Laws/Sample.lean ====
section
/-! SUPPORT. Laws of the sample step (R161): when it completes and with what, and which code a step selects. -/

namespace Sys2Proof.Machine

/-- The width, the delta and the index adjustment of each sample code; none for a command. -/
def sampleParams (T : Config.Tables) : Instr → Option (Nat × (Nat → Int) × Int)
  | .s2_0 => some (2, delta2 0, adjust2 0)
  | .s2_1 => some (2, delta2 1, adjust2 1)
  | .s2_2 => some (2, delta2 2, adjust2 2)
  | .s2_3 => some (2, delta2 3, adjust2 3)
  | .s4_0 => some (4, delta4 0, adjust4 T 0)
  | .s4_1 => some (4, delta4 1, adjust4 T 1)
  | .s4_2 => some (4, delta4 2, adjust4 T 2)
  | .s4_3 => some (4, delta4 3, adjust4 T 3)
  | .s4_4 => some (4, delta4 4, adjust4 T 4)
  | .s4_5 => some (4, delta4 5, adjust4 T 5)
  | .s4_6 => some (4, delta4 6, adjust4 T 6)
  | .s4_7 => some (4, delta4 7, adjust4 T 7)
  | .s4_8 => some (4, delta4 8, adjust4 T 8)
  | .s4_9 => some (4, delta4 9, adjust4 T 9)
  | .s4_a => some (4, delta4 10, adjust4 T 10)
  | .s4_b => some (4, delta4 11, adjust4 T 11)
  | .s4_c => some (4, delta4 12, adjust4 T 12)
  | .s4_d => some (4, delta4 13, adjust4 T 13)
  | .s4_e => some (4, delta4 14, adjust4 T 14)
  | .s4_f => some (4, delta4 15, adjust4 T 15)
  | .nop | .aduStart _ _ | .bcuInit | .bcuRead _ | .ltuT1 _ | .ltuT2 _ | .ltuT3 _ | .ltuLine _ => none
  | .lduDecode | .clrErr | .softReset => none

/-- The meaning of a sample code is the sample step with its parameters. -/
theorem exec_sample (i : Instr) (w : Nat) (d : Nat → Int) (adj : Int)
    (h : sampleParams Config.tables i = some (w, d, adj)) (s : State) : exec i s = sampleStep Config.tables w d adj s := by
  cases i <;> simp only [sampleParams, Option.some.injEq, Prod.mk.injEq, reduceCtorEq] at h <;>
    obtain ⟨rfl, rfl, rfl⟩ := h <;> rfl

theorem sampleParams_width (T : Config.Tables) (i : Instr) (w : Nat) (d : Nat → Int) (adj : Int)
    (h : sampleParams T i = some (w, d, adj)) : w = 2 ∨ w = 4 := by
  cases i <;> simp only [sampleParams, Option.some.injEq, Prod.mk.injEq, reduceCtorEq] at h <;> omega

/-- A 2-bit code's parameters. -/
theorem sampleParams_decodeS2 (T : Config.Tables) (c : BitVec 2) :
    sampleParams T (decodeS2 c) = some (2, delta2 c, adjust2 c) := by
  have h : ∀ c : BitVec 2, c = 0 ∨ c = 1 ∨ c = 2 ∨ c = 3 := by decide
  rcases h c with rfl | rfl | rfl | rfl <;> rfl

/-- A 4-bit code's parameters. -/
theorem sampleParams_decodeS4 (T : Config.Tables) (c : BitVec 4) :
    sampleParams T (decodeS4 c) = some (4, delta4 c, adjust4 T c) := by
  have h : ∀ c : BitVec 4, c = 0 ∨ c = 1 ∨ c = 2 ∨ c = 3 ∨ c = 4 ∨ c = 5 ∨ c = 6 ∨ c = 7 ∨ c = 8 ∨ c = 9 ∨ c = 10 ∨
    c = 11 ∨ c = 12 ∨ c = 13 ∨ c = 14 ∨ c = 15 := by decide
  rcases h c with rfl | rfl | rfl | rfl | rfl | rfl | rfl | rfl | rfl | rfl | rfl | rfl | rfl | rfl | rfl | rfl <;> rfl

/-- The byte is there (R162). -/
theorem currentBits_available (s : State) (h : s.ByteAvailable) : currentBits s = some s.unconsumed := by
  simp only [currentBits, State.unconsumed, trackAddr]
  split
  · rename_i hp; exact memRead1_inside _ _ (h hp)
  · rfl

/-- The byte lies outside the source. -/
theorem currentBits_missing (s : State) (h : ¬ s.ByteAvailable) : currentBits s = none := by
  simp only [State.ByteAvailable, Classical.not_imp, Nat.not_lt] at h
  simp only [currentBits, if_pos h.1, trackAddr]
  exact memRead1_outside _ _ (by omega)

/-- A sample step completes where its byte and its step size are there. -/
theorem sampleStep_next (T : Config.Tables) (w : Nat) (d : Nat → Int) (adj : Int) (s : State) (h : s.ByteAvailable)
    (hs : s.adu.sidx < 89) :
    sampleStep T w d adj s = .next (emitSample (sampleRegs w (d (stepSize T s.adu.sidx)) adj s.unconsumed s.adu) s) := by
  simp only [sampleStep, currentBits_available s h]
  exact if_pos hs

/-- Everything a sample step can do when it goes on. -/
theorem sampleStep_inv (T : Config.Tables) (w : Nat) (d : Nat → Int) (adj : Int) (s t : State)
    (h : sampleStep T w d adj s = .next t) :
    s.ByteAvailable ∧ s.adu.sidx < 89 ∧
      t = emitSample (sampleRegs w (d (stepSize T s.adu.sidx)) adj s.unconsumed s.adu) s := by
  by_cases hb : s.ByteAvailable
  · simp only [sampleStep, currentBits_available s hb] at h
    split at h
    · rename_i hs; exact ⟨hb, hs, by simpa using h.symm⟩
    · simp at h
  · simp [sampleStep, currentBits_missing s hb] at h

/-- The registers after a sample step, but for the position (R166). -/
theorem sampleRegs_tail (w : Nat) (d adj : Int) (b : Byte) (a : Adu) :
    (sampleRegs w d adj b a).pred = a.pred + clamp d (-2048) 2047 ∧
    (sampleRegs w d adj b a).sidx = (clamp (a.sidx + adj) 0 79).toNat ∧
    (sampleRegs w d adj b a).diff = clamp d (-2048) 2047 ∧
    (sampleRegs w d adj b a).cur = b >>> w ∧
    (sampleRegs w d adj b a).nout = a.nout + 1 ∧
    (sampleRegs w d adj b a).atrk = a.atrk := by
  refine ⟨?_, ?_, ?_, ?_, ?_, ?_⟩ <;> simp [sampleRegs, Config.sidxMax, Config.diffMin, Config.diffMax]

/-- The position after a sample step that ends its byte (R167). -/
theorem sampleRegs_endsByte (w : Nat) (d adj : Int) (b : Byte) (a : Adu) (h : a.bitpos + w = 8) :
    (sampleRegs w d adj b a).bitpos = 0 ∧ (sampleRegs w d adj b a).bptr = a.bptr + 1 := by
  simp [sampleRegs, advance, h]

/-- The position after any other sample step (R167). -/
theorem sampleRegs_insideByte (w : Nat) (d adj : Int) (b : Byte) (a : Adu) (h : a.bitpos + w ≠ 8) :
    (sampleRegs w d adj b a).bitpos = a.bitpos + w ∧ (sampleRegs w d adj b a).bptr = a.bptr := by
  simp [sampleRegs, advance, h]

end Sys2Proof.Machine
end

