-- ==== Sys2Proof/Laws/Exec.lean ====
section
/-! SUPPORT. What an instruction can do, said once: every next state of `exec` is one of these effects. -/

namespace Sys2Proof.Machine

/-- The next states of an instruction. -/
inductive Effect (i : Instr) (s : State) : State → Prop
  /-- A sample code. -/
  | sample (w : Nat) (d : Nat → Int) (adj : Int) (hp : sampleParams Config.tables i = some (w, d, adj))
      (hb : s.ByteAvailable) (hs : s.adu.sidx < 89) :
      Effect i s (emitSample (sampleRegs w (d (stepSize Config.tables s.adu.sidx)) adj s.unconsumed s.adu) s)
  /-- Nothing: `NOP`, or a command dropped by the fault lock. -/
  | unchanged (hp : sampleParams Config.tables i = none) : Effect i s s
  /-- A fault is entered. -/
  | raised (h0 : s.err.code = 0) (k : ErrKind) (o : Byte) (n : Nat)
      (hi : (∃ k s0, i = .aduStart k s0) ∧ o = 1 ∨ (∃ n, i = .bcuRead n) ∧ o = 3 ∨ (∃ n, i = .ltuT1 n) ∧ o = 4 ∨
        (∃ n, i = .ltuT2 n) ∧ o = 5 ∨ (∃ n, i = .ltuT3 n) ∧ o = 6 ∨ (∃ n, i = .ltuLine n) ∧ o = 7 ∨
        i = .lduDecode ∧ o = 8) :
      Effect i s (raiseErr k o n s)
  /-- `CLR_ERR`. -/
  | cleared (hi : i = .clrErr) : Effect i s (clearErr s)
  /-- `SOFT_RESET`. -/
  | softReset (hi : i = .softReset) : Effect i s (resetBlock s.out s)
  /-- An accepted `ADU_START`. -/
  | started (h0 : s.err.code = 0) (k : Fin 5) (s0 : Nat) (hi : i = .aduStart k s0) (hs0 : s0 ≤ 79)
      (hk : trackOutside k s = false) : Effect i s (acceptStart k s0 s)
  /-- `BCU_INIT`. -/
  | bcuInit (h0 : s.err.code = 0) (hi : i = .bcuInit) : Effect i s { s with bcu := { bval := 0, bidx := 16, bwp := s.arg } }
  /-- `BCU_READ` from the window as it is. -/
  | read (h0 : s.err.code = 0) (n : Nat) (hi : i = .bcuRead n) (h1 : 1 ≤ n) (h2 : n ≤ 16) (h3 : s.bcu.bidx + n ≤ 16) :
      Effect i s (deliver n s.bcu s)
  /-- `BCU_READ` after a refill. -/
  | refilled (h0 : s.err.code = 0) (n : Nat) (hi : i = .bcuRead n) (h1 : 1 ≤ n) (h2 : n ≤ 16) (h3 : 16 < s.bcu.bidx + n)
      (b : Bcu) (hb : refill s = some b) : Effect i s (deliver n b s)
  /-- A table lookup. -/
  | looked (h0 : s.err.code = 0) (n : Nat) (hi : i = .ltuT1 n ∨ i = .ltuT2 n ∨ i = .ltuT3 n ∨ i = .ltuLine n) (lo hi : Word) :
      Effect i s { s with result := lo, resultHi := hi }

/-- A command under the fault lock has an effect only when no fault is held. -/
theorem unlessFaulted_effect (i : Instr) (s s' : State) (hp : sampleParams Config.tables i = none)
    (h : s.err.code = 0 → Effect i s s') : Effect i s (unlessFaulted s s') := by
  by_cases h0 : s.err.code = 0
  · rw [unlessFaulted_free _ _ h0]; exact h h0
  · rw [unlessFaulted_held _ _ h0]; exact .unchanged hp

theorem aduStart_effect (k s0 : Nat) (s : State) (h0 : s.err.code = 0) : Effect (.aduStart k s0) s (aduStart k s0 s) := by
  unfold aduStart
  split
  · rename_i hk
    split
    · exact .raised h0 _ _ _ (.inl ⟨⟨_, _, rfl⟩, rfl⟩)
    · rename_i hs
      split
      · exact .raised h0 _ _ _ (.inl ⟨⟨_, _, rfl⟩, rfl⟩)
      · rename_i ho
        exact .started h0 ⟨k, hk⟩ s0 rfl (by simpa [Config.sidxMax] using hs) (by simpa using ho)
  · exact .raised h0 _ _ _ (.inl ⟨⟨_, _, rfl⟩, rfl⟩)

theorem bcuRead_effect (n : Nat) (s : State) (h0 : s.err.code = 0) : Effect (.bcuRead n) s (bcuRead n s) := by
  unfold bcuRead
  split
  · exact .raised h0 _ _ _ (.inr (.inl ⟨⟨_, rfl⟩, rfl⟩))
  · rename_i hn
    split
    · split
      · exact .raised h0 _ _ _ (.inr (.inl ⟨⟨_, rfl⟩, rfl⟩))
      · rename_i h3 _ b hb
        exact .refilled h0 n rfl (by omega) (by omega) h3 b hb
    · exact .read h0 n rfl (by omega) (by omega) (by omega)

theorem lookup_effect (i : Instr) (o : Byte) (len n : Nat) (lo hi : Word) (s : State) (h0 : s.err.code = 0)
    (hr : (∃ n, i = .ltuT1 n) ∧ o = 4 ∨ (∃ n, i = .ltuT2 n) ∧ o = 5 ∨ (∃ n, i = .ltuT3 n) ∧ o = 6 ∨
      (∃ n, i = .ltuLine n) ∧ o = 7)
    (hl : i = .ltuT1 n ∨ i = .ltuT2 n ∨ i = .ltuT3 n ∨ i = .ltuLine n) : Effect i s (lookup o len n lo hi s) := by
  unfold lookup
  split
  · refine .raised h0 _ _ _ ?_
    rcases hr with h | h | h | h
    · exact .inr (.inr (.inl h))
    · exact .inr (.inr (.inr (.inl h)))
    · exact .inr (.inr (.inr (.inr (.inl h))))
    · exact .inr (.inr (.inr (.inr (.inr (.inl h)))))
  · exact .looked h0 n hl lo hi

/-- Every next state of `exec` is an effect. -/
theorem exec_effect (i : Instr) (s t : State) (h : exec i s = .next t) : Effect i s t := by
  cases hp : sampleParams Config.tables i with
  | some p =>
    obtain ⟨w, d, adj⟩ := p
    rw [exec_sample i w d adj hp] at h
    obtain ⟨hb, hs, rfl⟩ := sampleStep_inv _ _ _ _ _ _ h
    exact .sample w d adj hp hb hs
  | none =>
    cases i with
    | nop => obtain rfl : s = t := by simpa [exec, execNop] using h
             exact .unchanged hp
    | aduStart k s0 =>
      obtain rfl : _ = t := by simpa only [exec, execAduStart, Host.Outcome.next.injEq] using h
      exact unlessFaulted_effect _ _ _ hp fun h0 => aduStart_effect k s0 s h0
    | bcuInit =>
      obtain rfl : _ = t := by simpa only [exec, execBcuInit, Host.Outcome.next.injEq] using h
      exact unlessFaulted_effect _ _ _ hp fun h0 => .bcuInit h0 rfl
    | bcuRead n =>
      obtain rfl : _ = t := by simpa only [exec, execBcuRead, Host.Outcome.next.injEq] using h
      exact unlessFaulted_effect _ _ _ hp fun h0 => bcuRead_effect n s h0
    | ltuT1 n =>
      obtain rfl : _ = t := by simpa only [exec, execLtuT1, Host.Outcome.next.injEq] using h
      exact unlessFaulted_effect _ _ _ hp fun h0 =>
        lookup_effect _ _ _ _ _ _ _ h0 (.inl ⟨⟨n, rfl⟩, rfl⟩) (.inl rfl)
    | ltuT2 n =>
      obtain rfl : _ = t := by simpa only [exec, execLtuT2, Host.Outcome.next.injEq] using h
      exact unlessFaulted_effect _ _ _ hp fun h0 =>
        lookup_effect _ _ _ _ _ _ _ h0 (.inr (.inl ⟨⟨n, rfl⟩, rfl⟩)) (.inr (.inl rfl))
    | ltuT3 n =>
      obtain rfl : _ = t := by simpa only [exec, execLtuT3, Host.Outcome.next.injEq] using h
      exact unlessFaulted_effect _ _ _ hp fun h0 =>
        lookup_effect _ _ _ _ _ _ _ h0 (.inr (.inr (.inl ⟨⟨n, rfl⟩, rfl⟩))) (.inr (.inr (.inl rfl)))
    | ltuLine n =>
      obtain rfl : _ = t := by simpa only [exec, execLtuLine, Host.Outcome.next.injEq] using h
      exact unlessFaulted_effect _ _ _ hp fun h0 =>
        lookup_effect _ _ _ _ _ _ _ h0 (.inr (.inr (.inr ⟨⟨n, rfl⟩, rfl⟩))) (.inr (.inr (.inr rfl)))
    | lduDecode =>
      obtain rfl : _ = t := by simpa only [exec, execLduDecode, Host.Outcome.next.injEq] using h
      exact unlessFaulted_effect _ _ _ hp fun h0 =>
        .raised h0 _ _ _ (.inr (.inr (.inr (.inr (.inr (.inr ⟨rfl, rfl⟩))))))
    | clrErr =>
      obtain rfl : _ = t := by simpa only [exec, execClrErr, Host.Outcome.next.injEq] using h
      exact .cleared rfl
    | softReset =>
      obtain rfl : _ = t := by simpa only [exec, execSoftReset, Host.Outcome.next.injEq] using h
      exact .softReset rfl
    | s2_0 | s2_1 | s2_2 | s2_3 | s4_0 | s4_1 | s4_2 | s4_3 | s4_4 | s4_5 | s4_6 | s4_7 | s4_8 | s4_9 | s4_a | s4_b
    | s4_c | s4_d | s4_e | s4_f => cases hp

/-- R238: with a fault held every command but `CLR_ERR` and `SOFT_RESET` leaves the state as it is. -/
theorem exec_faultLocked (i : Instr) (s : State) (h : s.err.code ≠ 0) (hp : sampleParams Config.tables i = none)
    (h1 : i ≠ .clrErr) (h2 : i ≠ .softReset) : exec i s = .next s := by
  cases i with
  | nop => rfl
  | clrErr => exact absurd rfl h1
  | softReset => exact absurd rfl h2
  | aduStart | bcuInit | bcuRead | ltuT1 | ltuT2 | ltuT3 | ltuLine | lduDecode =>
    exact congrArg Host.Outcome.next (unlessFaulted_held s _ h)
  | s2_0 | s2_1 | s2_2 | s2_3 | s4_0 | s4_1 | s4_2 | s4_3 | s4_4 | s4_5 | s4_6 | s4_7 | s4_8 | s4_9 | s4_a | s4_b
  | s4_c | s4_d | s4_e | s4_f => cases hp

/-- A command always goes on. -/
theorem exec_command (i : Instr) (s : State) (hp : sampleParams Config.tables i = none) : ∃ t, exec i s = .next t := by
  cases i <;> first | exact ⟨_, rfl⟩ | cases hp

end Sys2Proof.Machine
end

