-- ==== Sys2Proof/Laws/Lut.lean ====
section
/-! SUPPORT. Laws of the lookup tables: the digits of an index (R125), the entries (R126, R127), the packing of a pattern
(R103) and the lookup itself (R132 to R135). -/

namespace Sys2Proof.Machine

theorem digits_length (i : Nat) : (digits i).length = 8 := rfl

/-- Every digit is 0, 1 or 2. -/
theorem digits_lt (i : Nat) : ∀ x ∈ digits i, x < 3 := by
  intro x hx
  simp only [digits, List.mem_cons, List.not_mem_nil, or_false] at hx
  omega

theorem digits_getD_lt (i p : Nat) : (digits i).getD p 0 < 3 := by
  by_cases h : p < (digits i).length
  · rw [List.getD_eq_getElem _ _ h]; exact digits_lt i _ (List.getElem_mem h)
  · rw [List.getD_eq_default _ _ (Nat.not_lt.1 h)]; decide

/-- A digit by its place (R125). -/
theorem digits_getD (i p : Nat) (h : p < 8) : (digits i).getD p 0 = i / 3 ^ (7 - p) % 3 := by
  match p, h with
  | 0, _ | 1, _ | 2, _ | 3, _ | 4, _ | 5, _ | 6, _ | 7, _ => simp [digits]

/-- Different legal indices have different digits (R125). -/
theorem digits_injective (i j : Nat) (hi : i < 6561) (hj : j < 6561) (h : digits i = digits j) : i = j := by
  simp only [digits, List.cons.injEq, and_true] at h
  omega

/-- `T3[0] = 0` for every weight list (R126). -/
theorem dot_digits_zero (w : List Nat) : Config.dot w (digits 0) = 0 := by
  have h : ∀ (l w : List Nat), (∀ x ∈ l, x = 0) → Config.dot w l = 0 := by
    intro l
    induction l with
    | nil => intro w _; cases w <;> rfl
    | cons d ds ih =>
      intro w hl
      cases w with
      | nil => rfl
      | cons a w =>
        rw [Config.dot, hl d (by simp), ih w fun x hx => hl x (by simp [hx])]
        rfl
  exact h _ w (by decide)

/-- A byte of a pattern (R127). -/
theorem lineEntry_getD (T : Config.Tables) (i j : Nat) (h : j < 8) :
    (lineEntry T i).getD j 0 = (digits i).getD (T.linePerm.getD j 8) 0 := by
  have hl := T.linePerm_length
  rw [lineEntry, List.getD_eq_getElem _ _ (by simp; omega), List.getElem_map, List.getD_eq_getElem T.linePerm 8 (by omega)]

theorem linePerm_lt (T : Config.Tables) (j : Nat) (h : j < 8) : T.linePerm.getD j 8 < 8 := by
  have := T.linePerm_pairs j h; omega

/-- A pattern's four bytes as a number: nothing is lost (R103). -/
theorem packBytes_toNat (l : List Nat) (o : Nat) (h : ∀ p, l.getD p 0 < 256) : (packBytes l o).toNat =
    l.getD o 0 + 256 * l.getD (o + 1) 0 + 65536 * l.getD (o + 2) 0 + 16777216 * l.getD (o + 3) 0 := by
  have h0 := h o
  have h1 := h (o + 1)
  have h2 := h (o + 2)
  have h3 := h (o + 3)
  rw [packBytes, BitVec.toNat_ofNat, Nat.mod_eq_of_lt]
  omega

theorem lineEntry_lt (T : Config.Tables) (i p : Nat) : (lineEntry T i).getD p 0 < 256 := by
  by_cases h : p < 8
  · rw [lineEntry_getD T i p h]; have := digits_getD_lt i (T.linePerm.getD p 8); omega
  · have hl : (lineEntry T i).length = 8 := by rw [lineEntry, List.length_map]; exact T.linePerm_length
    rw [List.getD_eq_default _ _ (by omega)]; decide

/-- A code of a short table is a legal index of the long ones (R121, R122). -/
theorem shortTable_getD_lt (l : List Nat) (i : Nat) (h : ∀ v ∈ l, v < Config.longTableLen) : l.getD i 0 < 6561 := by
  by_cases hi : i < l.length
  · rw [List.getD_eq_getElem _ _ hi]; exact h _ (List.getElem_mem hi)
  · rw [List.getD_eq_default _ _ (Nat.not_lt.1 hi)]; decide

/-- A lookup of a legal index writes both result registers. -/
theorem lookup_legal (opc : Byte) (len i : Nat) (lo hi : Word) (s : State) (h : i < len) :
    lookup opc len i lo hi s = { s with result := lo, resultHi := hi } := if_neg (Nat.not_le.2 h)

/-- A lookup of an illegal index raises `InvalidTableIndex`. -/
theorem lookup_illegal (opc : Byte) (len i : Nat) (lo hi : Word) (s : State) (h : len ≤ i) :
    lookup opc len i lo hi s = raiseErr .invalidTableIndex opc i s := if_pos h

end Sys2Proof.Machine
end

