-- ==== Sys2Proof/Laws/Output.lean ====
section
/-! SUPPORT. Laws of the output stream laid out as bytes (R62 b, R67). -/

namespace Sys2Proof.Machine

theorem layOut_nil : layOut [] = [] := rfl

theorem layOut_cons (x : Half) (l : List Half) : layOut (x :: l) = sampleBytes x ++ layOut l := rfl

/-- What is appended to the samples is laid out behind what was there. -/
theorem layOut_append (l r : List Half) : layOut (l ++ r) = layOut l ++ layOut r := List.flatMap_append

/-- Two bytes a sample. -/
theorem layOut_length (l : List Half) : (layOut l).length = 2 * l.length := by
  induction l with
  | nil => rfl
  | cons x r ih =>
    have h2 : (sampleBytes x).length = 2 := rfl
    rw [layOut_cons, List.length_append, ih, h2, List.length_cons]
    omega

/-- A sample is its low byte and 256 times its high byte. -/
theorem half_toNat (x : Half) : x.toNat = (x.extractLsb' 0 8).toNat + 256 * (x.extractLsb' 8 8).toNat := by
  have h := x.isLt
  simp only [BitVec.extractLsb'_toNat, Nat.shiftRight_eq_div_pow]
  omega

/-- Where the two bytes of a sample lie. -/
theorem layOut_getElem? (l : List Half) (j : Nat) (h : j < l.length) :
    (layOut l)[2 * j]? = some (l[j].extractLsb' 0 8) ∧ (layOut l)[2 * j + 1]? = some (l[j].extractLsb' 8 8) := by
  induction l generalizing j with
  | nil => exact absurd h (Nat.not_lt_zero j)
  | cons x r ih =>
    cases j with
    | zero => exact ⟨rfl, rfl⟩
    | succ j => exact ih j (Nat.lt_of_succ_lt_succ h)

end Sys2Proof.Machine
end

