-- ==== Sys2Proof/Laws/PerInstr.lean ====
section
/-! SUPPORT. A statement about every instruction as syntax: which format carries it, and with which opcode. -/

namespace Sys2Proof.Laws.Format

/-- The opcode of a command's row of the opcode map (R98); none for a sample code. -/
def opcode : Instr → Option Nat
  | .s2_0 | .s2_1 | .s2_2 | .s2_3 => none
  | .s4_0 | .s4_1 | .s4_2 | .s4_3 | .s4_4 | .s4_5 | .s4_6 | .s4_7 => none
  | .s4_8 | .s4_9 | .s4_a | .s4_b | .s4_c | .s4_d | .s4_e | .s4_f => none
  | .nop => some 0x00
  | .aduStart _ _ => some 0x01
  | .bcuInit => some 0x02
  | .bcuRead _ => some 0x03
  | .ltuT1 _ => some 0x04
  | .ltuT2 _ => some 0x05
  | .ltuT3 _ => some 0x06
  | .ltuLine _ => some 0x07
  | .lduDecode => some 0x08
  | .clrErr => some 0x09
  | .softReset => some 0x0A

/-- The opcode an encoding carries: bits 31 to 24 of a command word (R97); a sample code carries none. -/
def carried : Encoding → Option Nat
  | .s2 _ | .s4 _ => none
  | .cw w => some (w.toNat / 2 ^ 24)

/-- The encoder gives a command word with the instruction's opcode, or a sample code. -/
def Statement (i : Instr) : Prop := carried (encode i) = opcode i

theorem command (o a2 a1 a0 : Nat) (h : o < 256) : carried (.cw (commandWord o a2 a1 a0)) = some o := by
  simp only [carried, commandWord_toNat]
  congr 1
  omega

theorem s2_0 : Statement .s2_0 := rfl
theorem s2_1 : Statement .s2_1 := rfl
theorem s2_2 : Statement .s2_2 := rfl
theorem s2_3 : Statement .s2_3 := rfl
theorem s4_0 : Statement .s4_0 := rfl
theorem s4_1 : Statement .s4_1 := rfl
theorem s4_2 : Statement .s4_2 := rfl
theorem s4_3 : Statement .s4_3 := rfl
theorem s4_4 : Statement .s4_4 := rfl
theorem s4_5 : Statement .s4_5 := rfl
theorem s4_6 : Statement .s4_6 := rfl
theorem s4_7 : Statement .s4_7 := rfl
theorem s4_8 : Statement .s4_8 := rfl
theorem s4_9 : Statement .s4_9 := rfl
theorem s4_a : Statement .s4_a := rfl
theorem s4_b : Statement .s4_b := rfl
theorem s4_c : Statement .s4_c := rfl
theorem s4_d : Statement .s4_d := rfl
theorem s4_e : Statement .s4_e := rfl
theorem s4_f : Statement .s4_f := rfl
theorem nop : Statement .nop := command _ _ _ _ (by decide)
theorem aduStart (k s0 : Nat) : Statement (.aduStart k s0) := command _ _ _ _ (by decide)
theorem bcuInit : Statement .bcuInit := command _ _ _ _ (by decide)
theorem bcuRead (n : Nat) : Statement (.bcuRead n) := command _ _ _ _ (by decide)
theorem ltuT1 (i : Nat) : Statement (.ltuT1 i) := command _ _ _ _ (by decide)
theorem ltuT2 (i : Nat) : Statement (.ltuT2 i) := command _ _ _ _ (by decide)
theorem ltuT3 (i : Nat) : Statement (.ltuT3 i) := command _ _ _ _ (by decide)
theorem ltuLine (i : Nat) : Statement (.ltuLine i) := command _ _ _ _ (by decide)
theorem lduDecode : Statement .lduDecode := command _ _ _ _ (by decide)
theorem clrErr : Statement .clrErr := command _ _ _ _ (by decide)
theorem softReset : Statement .softReset := command _ _ _ _ (by decide)

end Sys2Proof.Laws.Format
end

