-- ==== Sys2Proof/Laws/Registers.lean ====
section
/-! SUPPORT. Laws of the register map: what a performed write and a read leave unchanged (R231, R232, R42). -/

namespace Sys2Proof.Machine

/-- A performed write to a register other than `CMD` changes `ARG`, `SRC_SIZE`, `TRK_BASE` or `TRK_LEN` and nothing else. -/
theorem storeRegister_frame (index : Nat) (v : Word) (s : State) :
    storeRegister index v s = { s with
      arg := (storeRegister index v s).arg
      srcSize := (storeRegister index v s).srcSize
      trkBase := (storeRegister index v s).trkBase
      trkLen := (storeRegister index v s).trkLen } := by
  unfold storeRegister
  split <;> rfl

/-- A write to a register whose writes never wait stores nothing (R42). -/
theorem storeRegister_stray (index : Nat) (v : Word) (s : State) (h : writeWaits index = false) :
    storeRegister index v s = s := by
  simp only [writeWaits, Bool.or_eq_false_iff, Bool.and_eq_false_iff, decide_eq_false_iff_not] at h
  unfold storeRegister
  split <;> first | omega | rfl

/-- A read changes nothing of the block (R232): only the host's record of replies, and the count of mirror reads. -/
theorem hostRead_frame (index : Nat) (s : State) :
    hostRead index s = { s with reads := (hostRead index s).reads, mirrorReads := (hostRead index s).mirrorReads } := by
  unfold hostRead
  split <;> rfl

/-- The mirrors show a boundary of the run (R41). -/
theorem mirroredAdu_mem (s : State) : mirroredAdu s ∈ s.adu :: s.history := by
  unfold mirroredAdu
  rw [List.getD_eq_getElem _ _ (by rw [List.length_cons]; exact Nat.mod_lt _ (by omega))]
  exact List.getElem_mem _

end Sys2Proof.Machine
end

