-- ==== Sys2Proof/Laws/Step.lean ====
section
/-! SUPPORT. What a step can do, said once: which instruction it runs, and the effects of the host's actions. -/

namespace Sys2Proof.Machine

/-- The code the next sample step selects from the bits it has (R93, R95, R163). -/
def selectedCode (s : State) : Instr :=
  if codeWidth s.adu = 2 then decodeS2 (s.unconsumed.extractLsb' 0 2) else decodeS4 (s.unconsumed.extractLsb' 0 4)

/-- A sample step runs the selected code. -/
theorem runSample_available (s : State) (h : s.ByteAvailable) : runSample s = exec (selectedCode s) s := by
  simp only [runSample, nextCode, currentBits_available s h, Option.map_some, selectedCode]
  by_cases hw : codeWidth s.adu = 2 <;> simp [hw]

theorem runSample_missing (s : State) (h : ¬ s.ByteAvailable) : runSample s = .fault .fetchPastSource := by
  simp [runSample, nextCode, currentBits_missing s h]

/-- The selected code has the width the state selects. -/
theorem selectedCode_params (s : State) : ∃ d adj, sampleParams Config.tables (selectedCode s) = some (codeWidth s.adu, d, adj) := by
  unfold selectedCode
  split
  · rename_i h; rw [h]; exact ⟨_, _, sampleParams_decodeS2 _ _⟩
  · rename_i h
    have : codeWidth s.adu = 4 := by unfold codeWidth at h ⊢; split <;> simp_all
    rw [this]; exact ⟨_, _, sampleParams_decodeS4 _ _⟩

/-- Everything a sample step of a run can do when it goes on. -/
theorem runSample_inv (s t : State) (h : runSample s = .next t) :
    ∃ d adj, s.ByteAvailable ∧ s.adu.sidx < 89 ∧ sampleParams Config.tables (selectedCode s) = some (codeWidth s.adu, d, adj) ∧
      t = emitSample (sampleRegs (codeWidth s.adu) (d (stepSize Config.tables s.adu.sidx)) adj s.unconsumed s.adu) s := by
  by_cases hb : s.ByteAvailable
  · rw [runSample_available s hb] at h
    obtain ⟨d, adj, hp⟩ := selectedCode_params s
    rw [exec_sample _ _ _ _ hp] at h
    obtain ⟨_, hs, rfl⟩ := sampleStep_inv _ _ _ _ _ _ h
    exact ⟨d, adj, hb, hs, hp, rfl⟩
  · simp [runSample_missing s hb] at h

/-- A sample step of a run goes on where its byte is there and its step index is inside the table. -/
theorem runSample_next (s : State) (hb : s.ByteAvailable) (hs : s.adu.sidx < 89) : ∃ t, runSample s = .next t := by
  obtain ⟨d, adj, hp⟩ := selectedCode_params s
  rw [runSample_available s hb, exec_sample _ _ _ _ hp, sampleStep_next _ _ _ _ _ hb hs]
  exact ⟨_, rfl⟩

/-! ### Whose step it is -/

theorem step_nothingPending (s : State) (h : s.pending = []) : step s = blockStep s := by simp [step, nextStep, h]

theorem step_actionWaits (s : State) (a : HostAction) (p : List HostAction) (h : s.pending = a :: p)
    (hw : actionWaits a s = true) : step s = blockStep s := by simp [step, nextStep, h, hw]

theorem step_performs (s : State) (a : HostAction) (p : List HostAction) (h : s.pending = a :: p)
    (hw : actionWaits a s = false) : step s = performAction a { s with pending := p } := by simp [step, nextStep, h, hw]

theorem blockStep_run (s : State) (h : s.mode = .aduRun) : blockStep s = runSample s := by simp [blockStep, h]

theorem blockStep_idle (s : State) (h : s.mode = .idle) : blockStep s = .next s := by simp [blockStep, h]

theorem actionWaits_idle (a : HostAction) (s : State) (h : s.mode = .idle) : actionWaits a s = false := by
  cases a <;> simp [actionWaits, h]

/-- A write to `CMD` in `IDLE` whose word decodes. -/
theorem step_command (s : State) (w : Word) (p : List HostAction) (i : Instr) (hm : s.mode = .idle)
    (hp : s.pending = .wr 0 w :: p) (hd : decode (.cw w) = .ok i) : step s = exec i { s with pending := p } := by
  rw [step_performs s _ p hp (actionWaits_idle _ s hm)]
  simp [performAction, Reg.cmd, issueCommand, hd]

/-- Whose step it is, in the state in which a performed action is no longer pending. -/
inductive StepEffect (s : State) : State → Prop
  /-- A sample step: the host has nothing to do, its write waits, or it yields. -/
  | sample (p : List HostAction) (hm : s.mode = .aduRun) (hp : p = s.pending ∨ s.pending = .yield :: p) (t : State)
      (h : runSample { s with pending := p } = .next t) : StepEffect s t
  /-- The idle block. -/
  | idle (p : List HostAction) (hm : s.mode = .idle) (hp : p = s.pending ∨ s.pending = .yield :: p) :
      StepEffect s { s with pending := p }
  /-- A command. -/
  | command (w : Word) (p : List HostAction) (hm : s.mode = .idle) (hp : s.pending = .wr 0 w :: p) (i : Instr)
      (hd : decode (.cw w) = .ok i) (t : State) (h : exec i { s with pending := p } = .next t) : StepEffect s t
  /-- A reserved opcode. -/
  | illegal (w : Word) (p : List HostAction) (hm : s.mode = .idle) (hp : s.pending = .wr 0 w :: p)
      (hd : decode (.cw w) = .error (.reservedOpcode w)) : StepEffect s (illegalCommand w { s with pending := p })
  /-- A write to another register. -/
  | store (index : Nat) (v : Word) (p : List HostAction) (hp : s.pending = .wr index v :: p) (h0 : index ≠ 0)
      (hw : s.mode = .aduRun → writeWaits index = false) : StepEffect s (storeRegister index v { s with pending := p })
  /-- A register read. -/
  | read (index : Nat) (p : List HostAction) (hp : s.pending = .rd index :: p) :
      StepEffect s (hostRead index { s with pending := p })
  /-- The host places a source byte. -/
  | put (addr : Word) (b : Byte) (p : List HostAction) (hp : s.pending = .srcPut addr b :: p)
      (hr : inRunningTrack addr.toNat s = false) :
      StepEffect s { s with pending := p, src := s.src.put addr.toNat b }
  /-- The reset input. -/
  | hardReset (p : List HostAction) (hp : s.pending = .hardReset :: p) :
      StepEffect s (resetBlock [] { s with pending := p })

theorem decode_cw_error (w : Word) (e : DecodeError) (h : decode (.cw w) = .error e) : e = .reservedOpcode w := by
  simp only [decode, decodeCommand] at h
  split at h <;> simp at h
  exact h.symm

theorem blockStep_effect (s t : State) (p : List HostAction) (hp : p = s.pending ∨ s.pending = .yield :: p)
    (h : blockStep { s with pending := p } = .next t) : StepEffect s t := by
  unfold blockStep at h
  split at h
  · rename_i hm; exact .sample (s := s) p hm hp t h
  · rename_i hm
    obtain rfl : _ = t := by simpa only [Host.Outcome.next.injEq] using h
    exact .idle (s := s) p hm hp

/-- Every next state of `step` is an effect. -/
theorem step_effect (s t : State) (h : step s = .next t) : StepEffect s t := by
  unfold step nextStep at h
  split at h
  · rename_i hp
    exact blockStep_effect s t s.pending (.inl rfl) h
  · rename_i a rest hp
    split at h
    · exact blockStep_effect s t s.pending (.inl rfl) h
    · rename_i hw
      unfold performAction at h
      cases a with
      | rd index =>
        obtain rfl : _ = t := by simpa only [Host.Outcome.next.injEq] using h
        exact .read index rest hp
      | wr index v =>
        simp only at h
        split at h
        · rename_i hi; subst hi
          have hm : s.mode = .idle := by
            cases hm : s.mode with
            | idle => rfl
            | aduRun => simp [actionWaits, hm, writeWaits, Reg.cmd] at hw
          unfold issueCommand at h
          split at h
          · rename_i i hd; exact .command v rest hm hp i hd t h
          · rename_i w' hd
            obtain rfl : _ = t := by simpa only [Host.Outcome.next.injEq] using h
            obtain rfl : w' = v := by simpa using decode_cw_error v _ hd
            exact .illegal _ rest hm hp hd
        · rename_i hi
          obtain rfl : _ = t := by simpa only [Host.Outcome.next.injEq] using h
          refine .store index v rest hp hi fun hm => ?_
          simpa [actionWaits, hm] using hw
      | srcPut addr b =>
        simp only at h
        split at h
        · simp at h
        · rename_i hr
          obtain rfl : _ = t := by simpa only [Host.Outcome.next.injEq] using h
          exact .put addr b rest hp (by simpa [inRunningTrack] using hr)
      | hardReset =>
        obtain rfl : _ = t := by simpa only [Host.Outcome.next.injEq] using h
        exact .hardReset rest hp
      | yield => exact blockStep_effect s t rest (.inr hp) h

end Sys2Proof.Machine
end

