-- ==== Sys2Proof/Laws/Run.lean ====
section
/-! SUPPORT. Laws of runs: several steps as one step and the rest, and what the invariant gives a sample step. -/

namespace Sys2Proof.Machine

/-! ### Several steps -/

theorem run_zero (s : State) : Sys2Proof.core.run 0 s = .next s := rfl

/-- The first step of a run that goes on. -/
theorem run_succ_next (n : Nat) (s t : State) (h : step s = .next t) :
    Sys2Proof.core.run (n + 1) s = Sys2Proof.core.run n t := by
  have h' : Sys2Proof.core.step s = .next t := h
  simp only [Host.Core.run, h']

/-- A run that goes on has a first step. -/
theorem run_succ_inv (n : Nat) (s u : State) (h : Sys2Proof.core.run (n + 1) s = .next u) :
    ∃ t, step s = .next t ∧ Sys2Proof.core.run n t = .next u := by
  cases hs : step s with
  | next t => exact ⟨t, rfl, by rw [← run_succ_next n s t hs]; exact h⟩
  | fault r =>
    have h' : Sys2Proof.core.step s = .fault r := hs
    simp [Host.Core.run, h'] at h
  | refused r =>
    have h' : Sys2Proof.core.step s = .refused r := hs
    simp [Host.Core.run, h'] at h

/-- Runs compose. -/
theorem run_add (n m : Nat) (s t : State) (h : Sys2Proof.core.run n s = .next t) :
    Sys2Proof.core.run (n + m) s = Sys2Proof.core.run m t := by
  induction n generalizing s with
  | zero => cases h; rw [Nat.zero_add]
  | succ n ih =>
    obtain ⟨u, hu, hr⟩ := run_succ_inv n s t h
    rw [Nat.succ_add, run_succ_next (n + m) s u hu]
    exact ih u hr

/-! ### What the invariant gives a sample step -/

/-- A code never leaves its byte (R25, R163). -/
theorem codeWidth_fits (a : Adu) (h : a.bitpos ∈ [0, 2, 4, 6]) :
    (codeWidth a = 2 ∨ codeWidth a = 4) ∧ a.bitpos + codeWidth a ≤ 8 := by
  simp only [List.mem_cons, List.not_mem_nil, or_false] at h
  have e : Config.bitposLimit = 4 := rfl
  unfold codeWidth
  split <;> omega

/-- The fetch of a run cannot fail (R162). -/
theorem State.RunInv.byteAvailable {s : State} (h : s.RunInv) : s.ByteAvailable := by
  intro _
  have := h.bptr_lt
  have := h.inside
  omega

/-- The unconsumed bits fit what is left of the byte (R192 g). -/
theorem unconsumed_lt (s : State) (h : s.adu.cur.toNat < 2 ^ (8 - s.adu.bitpos)) :
    s.unconsumed.toNat < 2 ^ (8 - s.adu.bitpos) := by
  unfold State.unconsumed
  split
  · rename_i h0; rw [h0]; exact (s.src.read _).isLt
  · exact h

/-- What is left after a code is taken fits what is then left of the byte. -/
theorem shiftRight_lt (b : Byte) (p w : Nat) (hb : b.toNat < 2 ^ (8 - p)) (hw : p + w ≤ 8) :
    (b >>> w).toNat < 2 ^ (8 - (p + w)) := by
  rw [BitVec.toNat_ushiftRight, Nat.shiftRight_eq_div_pow]
  apply Nat.div_lt_of_lt_mul
  rw [← Nat.pow_add, show w + (8 - (p + w)) = 8 - p by omega]
  exact hb

/-- The invariant does not speak of what the host is about to do. -/
theorem State.Inv.withPending {s : State} (h : s.Inv) (p : List HostAction) : ({ s with pending := p } : State).Inv :=
  ⟨h.adu, h.bcu, fun hm => ⟨(h.run hm).1, (h.run hm).2, (h.run hm).3, (h.run hm).4, (h.run hm).5⟩, h.history_idle,
    h.history_run, h.nout_le_out, h.out_scaled, h.empty_done, h.err_code_le, h.err_none, h.src_wf⟩

end Sys2Proof.Machine
end

