-- ==== Sys2Proof/Tests/Slice0.lean ====
section
/-! SUPPORT. The model's own tests. Expected results come from the spec: the encodings of 30_encoding.md, the reset table R52
and the vectors of 95_test_vectors.md (named beside each test). At the end, one witness for every obligation with
hypotheses. -/

namespace Sys2Proof.Tests

open Sys2Proof.Machine

/-! ### Small states -/

/-- A source that holds these bytes from an address on. -/
def placed (a : Nat) : List Byte → Memory → Memory
  | [], m => m
  | b :: rest, m => placed (a + 1) rest (m.put a b)

/-- After reset, with these source bytes from address 0 on. -/
def withSource (bytes : List Byte) : State :=
  { State.reset with srcSize := BitVec.ofNat 32 bytes.length, src := placed 0 bytes { cells := [] } }

/-- A run on track 0, which is the whole source, at its start. -/
def runOn (bytes : List Byte) (sidx : Nat) : State :=
  { withSource bytes with
    mode := .aduRun
    trkLen := State.reset.trkLen.set 0 (BitVec.ofNat 32 bytes.length)
    adu := { Adu.reset with sidx := sidx } }

/-- The vectors' starting point: one step at a step index and a position, with these unconsumed bits (and more of the track
to come). -/
def vector (sidx bitpos : Nat) (cur : Byte) : State :=
  { runOn [cur, 0] sidx with adu := { Adu.reset with sidx := sidx, bitpos := bitpos, cur := cur } }

/-- The columns of the vector tables: the new `SIDX`, `DIFF`, `PRED`, the emitted samples, `BITPOS` and `BPTR`. -/
structure Columns where
  sidx : Nat
  diff : Int
  pred : Int
  out : List Half
  bitpos : Nat
  bptr : Word
  deriving DecidableEq, Repr

/-- What a step leaves in those columns. -/
def columns : Result → Option Columns
  | .next t => some ⟨t.adu.sidx, t.adu.diff, t.adu.pred, t.out, t.adu.bitpos, t.adu.bptr⟩
  | _ => none

/-- The columns of the cursor's sequences: `RESULT`, `BVAL`, `BIDX`, `BWP` and `ERR_CODE`, `ERR_INFO`. -/
structure CursorColumns where
  result : Word
  bval : Word
  bidx : Int
  bwp : Word
  errCode : Byte
  errInfo : Word
  deriving DecidableEq, Repr

/-- What a step leaves in those columns. -/
def cursorColumns : Result → Option CursorColumns
  | .next t => some ⟨t.result, t.bcu.bval, t.bcu.bidx, t.bcu.bwp, t.err.code, t.err.info⟩
  | _ => none

/-- The columns of program P6: `STATUS`, `ERR`, `ERR_INFO`. -/
def statusColumns : Result → Option (Word × Word × Word)
  | .next t => some (t.status, t.errWord, t.err.info)
  | _ => none

/-- `RESULT`, `RESULT_HI`. -/
def resultColumns (t : State) : Word × Word := (t.result, t.resultHi)

/-- In `IDLE`, the host about to write a word to `CMD`. -/
def command (w : Word) : State := { State.reset with pending := [.wr 0 w] }

/-- A state with a fault held. -/
def faulted : State := { State.reset with err := { code := 6, opc := 0xFF, info := 0xFF000000 } }

/-! ### Well-formedness: a term that fits no field is refused, one check each -/

theorem test_refuses_wide_track : (Instr.aduStart 256 0).WellFormed = false := by decide
theorem test_refuses_wide_step : (Instr.aduStart 0 256).WellFormed = false := by decide
theorem test_refuses_wide_count : (Instr.bcuRead 256).WellFormed = false := by decide
theorem test_refuses_wide_index : [Instr.ltuT1 65536, .ltuT2 65536, .ltuT3 65536, .ltuLine 65536].all (!·.WellFormed) = true := by
  decide
theorem test_accepts_widest : [Instr.aduStart 255 255, .bcuRead 255, .ltuT1 65535, .ltuLine 65535, .s2_0, .s4_f, .nop].all
    (·.WellFormed) = true := by decide

/-! ### Decoding: every constructor, from a word written out from R91, R92, R97, R98 -/

theorem test_decode_s2 : [0b00#2, 0b01#2, 0b10#2, 0b11#2].map (fun c => (decode (.s2 c)).toOption) =
    [some .s2_0, some .s2_1, some .s2_2, some .s2_3] := by decide

theorem test_decode_s4_positive : [0b0000#4, 0b0001#4, 0b0010#4, 0b0011#4, 0b0100#4, 0b0101#4, 0b0110#4, 0b0111#4].map
      (fun c => (decode (.s4 c)).toOption) =
    [some .s4_0, some .s4_1, some .s4_2, some .s4_3, some .s4_4, some .s4_5, some .s4_6, some .s4_7] := by decide

theorem test_decode_s4_negative : [0b1000#4, 0b1001#4, 0b1010#4, 0b1011#4, 0b1100#4, 0b1101#4, 0b1110#4, 0b1111#4].map
      (fun c => (decode (.s4 c)).toOption) =
    [some .s4_8, some .s4_9, some .s4_a, some .s4_b, some .s4_c, some .s4_d, some .s4_e, some .s4_f] := by decide

theorem test_decode_nop : decode (.cw 0b00000000_00000000_00000000_00000000#32) = .ok .nop := by decide
theorem test_decode_aduStart : decode (.cw 0b00000001_00000000_00101000_00000010#32) = .ok (.aduStart 2 40) := by decide
theorem test_decode_bcuInit : decode (.cw 0b00000010_00000000_00000000_00000000#32) = .ok .bcuInit := by decide
theorem test_decode_bcuRead : decode (.cw 0b00000011_00000000_00000000_00001101#32) = .ok (.bcuRead 13) := by decide
theorem test_decode_ltuT1 : decode (.cw 0b00000100_00000000_00000000_00011111#32) = .ok (.ltuT1 31) := by decide
theorem test_decode_ltuT2 : decode (.cw 0b00000101_00000000_00000000_00010011#32) = .ok (.ltuT2 19) := by decide
theorem test_decode_ltuT3 : decode (.cw 0b00000110_00000000_00011001_10100001#32) = .ok (.ltuT3 6561) := by decide
theorem test_decode_ltuLine : decode (.cw 0b00000111_00000000_00000100_11010010#32) = .ok (.ltuLine 1234) := by decide
theorem test_decode_lduDecode : decode (.cw 0b00001000_00000000_00000000_00000000#32) = .ok .lduDecode := by decide
theorem test_decode_clrErr : decode (.cw 0b00001001_00000000_00000000_00000000#32) = .ok .clrErr := by decide
theorem test_decode_softReset : decode (.cw 0b00001010_00000000_00000000_00000000#32) = .ok .softReset := by decide

/-- R97: operand bits a command does not use are ignored, `A[23:16]` of `ADU_START` and of a lookup among them. -/
theorem test_decode_ignores_unused : [0x00FFFFFF#32, 0x01FF2802#32, 0x02FFFFFF#32, 0x03FFFF0D#32, 0x07FF04D2#32, 0x09FFFFFF#32].map
      (fun w => (decode (.cw w)).toOption) =
    [some .nop, some (.aduStart 2 40), some .bcuInit, some (.bcuRead 13), some (.ltuLine 1234), some .clrErr] := by decide

/-- R100: the reserved opcodes' ends, and P6 row 15. -/
theorem test_decode_reserved : [0x0B000000#32, 0xFFFFFFFF#32].map (fun w => decode (.cw w)) =
    [.error (.reservedOpcode 0x0B000000#32), .error (.reservedOpcode 0xFFFFFFFF#32)] := by decide

/-- R101's words, encoded. -/
theorem test_encode_words : [Instr.aduStart 2 40, .bcuRead 13, .ltuLine 1234, .softReset].map encode =
    [.cw 0x01002802#32, .cw 0x0300000D#32, .cw 0x070004D2#32, .cw 0x0A000000#32] := by decide

/-! ### Sample codes, with the reference tables: vectors of 95_test_vectors.md, section 2 -/

/-- V1. -/
theorem test_s2_0 : columns (sampleS2 Config.reference 0 (vector 0 0 0x00)) = some ⟨0, 0, 0, [0x0000], 2, 0⟩ := by decide
/-- V10. -/
theorem test_s2_1 : columns (sampleS2 Config.reference 1 (vector 58 6 0x01)) = some ⟨60, 2047, 2047, [0x7FF0], 0, 1⟩ := by decide
/-- V7. -/
theorem test_s2_2 : columns (sampleS2 Config.reference 2 (vector 17 2 0x02)) = some ⟨16, -4, -4, [0xFFC0], 4, 0⟩ := by decide
/-- V16. -/
theorem test_s2_3 : columns (sampleS2 Config.reference 3 (vector 79 6 0x03)) = some ⟨79, -2048, -2048, [0x8000], 0, 1⟩ := by decide
/-- V17. -/
theorem test_s4_0 : columns (sampleS4 Config.reference 0 (vector 18 0 0x00)) = some ⟨17, 5, 5, [0x0050], 4, 0⟩ := by decide
/-- V34. -/
theorem test_s4_1 : columns (sampleS4 Config.reference 1 (vector 53 4 0x01)) = some ⟨52, 436, 436, [0x1B40], 0, 1⟩ := by decide
/-- V35. -/
theorem test_s4_2 : columns (sampleS4 Config.reference 2 (vector 53 4 0x02)) = some ⟨52, 728, 728, [0x2D80], 0, 1⟩ := by decide
/-- V36. -/
theorem test_s4_3 : columns (sampleS4 Config.reference 3 (vector 53 4 0x03)) = some ⟨52, 1019, 1019, [0x3FB0], 0, 1⟩ := by decide
/-- V37. -/
theorem test_s4_4 : columns (sampleS4 Config.reference 4 (vector 53 4 0x04)) = some ⟨55, 1311, 1311, [0x51F0], 0, 1⟩ := by decide
/-- V22. -/
theorem test_s4_5 : columns (sampleS4 Config.reference 5 (vector 18 0 0x05)) = some ⟨22, 56, 56, [0x0380], 4, 0⟩ := by decide
/-- V39. -/
theorem test_s4_6 : columns (sampleS4 Config.reference 6 (vector 53 4 0x06)) = some ⟨59, 1894, 1894, [0x7660], 0, 1⟩ := by decide
/-- V56. -/
theorem test_s4_7 : columns (sampleS4 Config.reference 7 (vector 79 0 0x07)) = some ⟨79, 2047, 2047, [0x7FF0], 4, 0⟩ := by decide
/-- V41. -/
theorem test_s4_8 : columns (sampleS4 Config.reference 8 (vector 53 4 0x08)) = some ⟨52, -145, -145, [0xF6F0], 0, 1⟩ := by decide
/-- V26. -/
theorem test_s4_9 : columns (sampleS4 Config.reference 9 (vector 18 0 0x09)) = some ⟨17, -15, -15, [0xFF10], 4, 0⟩ := by decide
/-- V43. -/
theorem test_s4_a : columns (sampleS4 Config.reference 10 (vector 53 4 0x0A)) = some ⟨52, -728, -728, [0xD280], 0, 1⟩ := by decide
/-- V44. -/
theorem test_s4_b : columns (sampleS4 Config.reference 11 (vector 53 4 0x0B)) = some ⟨52, -1019, -1019, [0xC050], 0, 1⟩ := by decide
/-- V45. -/
theorem test_s4_c : columns (sampleS4 Config.reference 12 (vector 53 4 0x0C)) = some ⟨55, -1311, -1311, [0xAE10], 0, 1⟩ := by decide
/-- V30. -/
theorem test_s4_d : columns (sampleS4 Config.reference 13 (vector 18 0 0x0D)) = some ⟨22, -56, -56, [0xFC80], 4, 0⟩ := by decide
/-- V47. -/
theorem test_s4_e : columns (sampleS4 Config.reference 14 (vector 53 4 0x0E)) = some ⟨59, -1894, -1894, [0x89A0], 0, 1⟩ := by decide
/-- V48. -/
theorem test_s4_f : columns (sampleS4 Config.reference 15 (vector 53 4 0x0F)) = some ⟨61, -2048, -2048, [0x8000], 0, 1⟩ := by decide

/-- Each arm of the dispatch runs its own code (R91, R92). -/
theorem test_arms (s : State) : [exec .s2_0 s, exec .s2_3 s, exec .s4_0 s, exec .s4_7 s, exec .s4_8 s, exec .s4_f s] =
    [sampleS2 Config.tables 0 s, sampleS2 Config.tables 3 s, sampleS4 Config.tables 0 s, sampleS4 Config.tables 7 s,
      sampleS4 Config.tables 8 s, sampleS4 Config.tables 15 s] := rfl

/-- P5's byte `0xB1`: the code at position 2 is the four bits `1100`, the one at position 6 the two bits `10` (R94, R95). -/
theorem test_code_selection : [nextCode (vector 16 0 0xB1), nextCode (vector 18 2 0x2C), nextCode (vector 20 6 0x02)] =
    [some (.s2 0b01), some (.s4 0b1100), some (.s2 0b10)] := by decide

/-- P5's two bytes by the function of R193. -/
theorem test_decodeTrack : decodeTrack Config.reference [0xB1, 0x2E] { pred := 0, sidx := 16, diff := 0 } =
    ([0x0260, 0xFF80, 0xFF20, 0xFAA0, 0xFDC0], { pred := -36, sidx := 24, diff := 50 }) := by decide

/-- P3's end: the predictor is not clamped and the sample wraps. -/
theorem test_decodeTrack_wraps : decodeTrack Config.reference [0xFF, 0xFF, 0xFF] { pred := 0, sidx := 40, diff := 0 } =
    ([0xD890, 0x83C0, 0x03C0, 0x83C0, 0x03C0, 0x83C0], { pred := -10180, sidx := 79, diff := -2048 }) := by decide

/-! ### The bit cursor: sequences B, C, D of section 3 -/

/-- Sequence B's source, at a cursor. -/
def cursorB (bval : Word) (bidx : Int) (bwp : Word) : State :=
  { withSource [0xB5, 0x3A, 0xC7, 0x01, 0xFF, 0x80, 0x5A] with bcu := { bval := bval, bidx := bidx, bwp := bwp } }

/-- B1, from the state after `BCU_INIT`. -/
theorem test_bcuRead_first : cursorColumns (exec (.bcuRead 3) (cursorB 0 16 0)) = some ⟨0x5, 0x756, 3, 2, 0, 0⟩ := by decide

/-- C4: eleven bits were valid. -/
theorem test_bcuRead_straddles : cursorColumns (exec (.bcuRead 16) (cursorB 0xE 5 4)) = some ⟨0xF80E, 0x407, 5, 6, 0, 0⟩ := by
  decide

/-- B7: the odd last byte cannot be read. -/
theorem test_bcuRead_ends : cursorColumns (exec (.bcuRead 1) (cursorB 0 16 6)) = some ⟨0, 0, 16, 6, 3, 6⟩ := by decide

/-- B8, B9. -/
theorem test_bcuRead_badCount : [17, 0].map (fun n => cursorColumns (exec (.bcuRead n) (cursorB 0 16 6))) =
    [some ⟨0, 0, 16, 6, 4, 17⟩, some ⟨0, 0, 16, 6, 4, 0⟩] := by decide

/-- D: a cursor at an odd address; R141's example. -/
theorem test_bcuInit : cursorColumns (exec .bcuInit { cursorB 0x756 3 2 with arg := 0x1234 }) =
    some ⟨0, 0, 16, 0x1234, 0, 0⟩ := by decide

/-! ### The lookup tables: section 4 -/

/-- T12, T13 and T16. -/
theorem test_ltuT1 : ([3, 31].map fun i => resultColumns (ltuT1 Config.reference i State.reset)) = [(0x2D9, 0), (0x166C, 0)] ∧
    (ltuT1 Config.reference 32 State.reset).err = { code := 5, opc := 0x04, info := 32 } := by decide

/-- T14, T15 and R133's example. -/
theorem test_ltuT2 : ([3, 19, 31].map fun i => resultColumns (ltuT2 Config.reference i State.reset)) =
    [(0x3, 0), (0x2DC, 0), (0x1004, 0)] := by decide

/-- T1 and T17. -/
theorem test_ltuT3 : resultColumns (ltuT3 Config.reference 0 State.reset) = (0, 0) ∧
    (ltuT3 Config.reference 6561 State.reset).err = { code := 5, opc := 0x06, info := 6561 } := by decide

/-- T3, T5, T6, T8, T9, T10. -/
theorem test_ltuLine : ([6560, 1, 3, 2187, 1234, 5740].map fun i => resultColumns (ltuLine Config.reference i State.reset)) =
    [(0x02020202, 0x02020202), (0, 0x00010000), (0, 0x01000000), (0x00000100, 0), (0x02000001, 0x00010002),
      (0x02010201, 0x02010201)] := by decide

/-- T18. -/
theorem test_ltuLine_faults : (ltuLine Config.reference 65535 State.reset).err = { code := 5, opc := 0x07, info := 65535 } := by
  decide

/-! ### System commands: program P6 -/

/-- P6's state after row 3: eight zero bytes, track 0 at 4 with length `len`. -/
def p6 (len : Word) : State :=
  { withSource [0, 0, 0, 0, 0, 0, 0, 0] with
    trkBase := State.reset.trkBase.set 0 4
    trkLen := State.reset.trkLen.set 0 len }

/-- P6's state after row 4. -/
def p6row4 (len : Word) : State := { p6 len with empty := true, done := true }

/-- Row 4 (an absent track) and row 17 (accepted). -/
theorem test_aduStart : [exec (.aduStart 1 0) (p6 4), exec (.aduStart 0 0) (p6row4 4)].map statusColumns =
    [some (0x1A, 0, 0), some (0x11, 0, 0)] := by decide

/-- Rows 5, 8 and 10. -/
theorem test_aduStart_faults : [exec (.aduStart 5 0) (p6row4 4), exec (.aduStart 0 80) (p6row4 4), exec (.aduStart 0 0) (p6row4 5)].map
      statusColumns = [some (0x1E, 0x0101, 5), some (0x1E, 0x0102, 80), some (0x1E, 0x0103, 4)] := by decide

/-- Row 6: the fault lock. -/
theorem test_faultLock : [Instr.aduStart 0 0, .bcuInit, .bcuRead 1, .ltuT1 0, .ltuT2 0, .ltuT3 0, .ltuLine 0, .lduDecode, .nop].all
    (fun i => match exec i faulted with | .next t => decide (t = faulted) | _ => false) = true := by decide

/-- Row 12. -/
theorem test_lduDecode : statusColumns (exec .lduDecode (p6row4 4)) = some (0x1E, 0x0807, 0) := by decide

/-- Row 13. -/
theorem test_nop : statusColumns (exec .nop faulted) = some (0x4, 0xFF06, 0xFF000000) := by decide

/-- Row 14. -/
theorem test_clrErr : statusColumns (exec .clrErr { p6row4 4 with err := faulted.err }) = some (0x1A, 0, 0) := by decide

/-- Row 18: every register at its reset value, the samples kept. -/
theorem test_softReset : (match exec .softReset { p6row4 4 with out := [0x70] } with
    | .next t => decide (t = { State.reset with out := [0x70], src := (p6 4).src })
    | _ => false) = true := by decide

/-- Row 15, as a step. -/
theorem test_reserved_step : statusColumns (step { p6row4 4 with pending := [.wr 0 0x0B000000] }) =
    some (0x1E, 0x0B06, 0x0B000000) := by decide

/-! ### The interface to the host's own checks: a placed word runs -/

theorem test_placed_command : statusColumns (step (State.reset.withFetchWord 32 0x08000000)) = some (0x4, 0x0807, 0) := by decide

theorem test_placed_code : step (State.reset.withFetchWord 4 0xD) = exec .s4_d (State.reset.withFetchWord 4 0xD) := rfl

theorem test_table_words : [decodeTableWord 2 3, decodeTableWord 4 0xD, decodeTableWord 8 3, decodeTableWord 8 13,
      decodeTableWord 32 0x01002802, decodeTableWord 32 0x0B000000] =
    [some .s2_3, some .s4_d, some .s2_3, some .s4_d, some (.aduStart 2 40), none] := by decide

/-! ### The output as bytes -/

/-- R62 b: the low byte first. V10's and V16's samples. -/
theorem test_outBytes : { State.reset with out := [0x7FF0, 0x8000] }.outBytes = [0xF0, 0x7F, 0x00, 0x80] := by decide

/-! ### Witnesses: a concrete state that meets all hypotheses of each obligation, one for each clause -/

theorem witness_DecodeInvertsEncode : (Instr.aduStart 255 255).WellFormed = true ∧ (Instr.ltuLine 65535).WellFormed = true ∧
    Instr.s4_f.WellFormed = true := by decide

theorem witness_DecodedEncodesBack : decode (.s2 3) = .ok .s2_3 ∧ decode (.s4 15) = .ok .s4_f ∧
    decode (.cw 0x01FFFFFF) = .ok (.aduStart 255 255) := by decide

/-- Both ends of both ranges of opcodes. -/
theorem witness_OnlyReservedOpcodesRejected : 0x0B ≤ Claims.opc 0x0B000000 ∧ 0x0B ≤ Claims.opc 0xFFFFFFFF ∧
    Claims.opc 0x0AFFFFFF < 0x0B ∧ Claims.opc 0 < 0x0B := by decide

/-- Words that differ in unused bits only, for each clause. -/
theorem witness_UnusedOperandBitsIgnored : [(0x01002802#32, 0x01FF2802#32), (0x0300000D, 0x03FFFF0D), (0x04000003, 0x04FF0003),
      (0x070004D2, 0x07FF04D2), (0x0A000000, 0x0AFFFFFF)].all (fun p =>
    decide (Claims.opc p.1 = Claims.opc p.2 ∧ Claims.opc p.1 < 0x0B ∧
      (Claims.opc p.1 = 0x01 → p.1.toNat % 2 ^ 16 = p.2.toNat % 2 ^ 16) ∧
      (Claims.opc p.1 = 0x03 → p.1.toNat % 2 ^ 8 = p.2.toNat % 2 ^ 8) ∧
      (0x04 ≤ Claims.opc p.1 ∧ Claims.opc p.1 ≤ 0x07 → p.1.toNat % 2 ^ 16 = p.2.toNat % 2 ^ 16))) = true := by decide

theorem runOn_available (bytes : List Byte) (sidx : Nat) (h : 0 < bytes.length) (h32 : bytes.length < 2 ^ 32) :
    (runOn bytes sidx).ByteAvailable := by
  intro _
  show 0 + 0 < (BitVec.ofNat 32 bytes.length).toNat
  rw [BitVec.toNat_ofNat, Nat.mod_eq_of_lt h32]
  exact h

/-- A 2-bit code below the threshold, a 4-bit code at it, and a 2-bit code forced by the position. -/
theorem witness_StepRunsSelectedSampleCode :
    (runOn [0x2D] 17).mode = .aduRun ∧ (runOn [0x2D] 17).ByteAvailable ∧ (vector 20 6 0x02).ByteAvailable ∧
    decode (Claims.selected (runOn [0x2D] 17)) = .ok .s2_1 ∧ decode (Claims.selected (runOn [0x2D] 18)) = .ok .s4_d ∧
    decode (Claims.selected (vector 20 6 0x02)) = .ok .s2_2 ∧ (runOn [0x2D] 17).pending = [] ∧
    { runOn [0x2D] 17 with pending := [.wr 17 5] }.pending = .wr 17 5 :: [] ∧ Claims.Waits 17 ∧ Claims.Waits 0 ∧
    { runOn [0x2D] 17 with pending := [.yield] }.pending = .yield :: [] :=
  ⟨rfl, runOn_available _ _ (by decide) (by decide), fun h => absurd h (by decide), by decide, by decide, by decide, rfl, rfl,
    .inr (.inr (.inr (by decide))), .inl rfl, rfl⟩

theorem witness_StepRunsWrittenCommand : (command 0x0A000000).mode = .idle ∧
    (command 0x0A000000).pending = .wr 0 0x0A000000 :: [] ∧ decode (.cw 0x0A000000) = .ok .softReset := by decide

theorem witness_ReservedOpcodeFaults : (command 0x0B000000).mode = .idle ∧
    (command 0x0B000000).pending = .wr 0 0x0B000000 :: [] ∧ (command 0x0B000000).err.code = 0 ∧
    0x0B ≤ Claims.opc 0x0B000000 := by decide

/-- A dropped word, a reserved one among them; and an executed one of each kind. -/
theorem witness_FaultLockDropsCommands :
    { faulted with pending := [.wr 0 0x08000000] }.mode = .idle ∧
    { faulted with pending := [.wr 0 0x08000000] }.pending = .wr 0 0x08000000 :: [] ∧ faulted.err.code ≠ 0 ∧
    [0x01000000#32, 0x08000000, 0x0B000000, 0xFF000000].all
      (fun w => decide (Claims.opc w ≠ 0 ∧ Claims.opc w ≠ 9 ∧ Claims.opc w ≠ 10)) = true ∧
    (command 0x08000000).err.code = 0 ∧ decode (.cw 0x08000000) = .ok .lduDecode ∧ Claims.opc 0x00000000 = 0 ∧
    decode (.cw 0x00000000) = .ok .nop ∧ Claims.opc 0x09000000 = 9 ∧ decode (.cw 0x09000000) = .ok .clrErr ∧
    Claims.opc 0x0A000000 = 10 ∧ decode (.cw 0x0A000000) = .ok .softReset := by decide

/-- At a byte's start and inside a byte, at both ends of the step indices of `STEP_TABLE`. -/
theorem witness_TwoBitCodesResult : (∃ d, Claims.twoBitRule .s2_3 = some (d, 2)) ∧ (runOn [0xFF] 0).ByteAvailable ∧
    (runOn [0xFF] 0).adu.sidx < 89 ∧ (vector 88 6 0x03).ByteAvailable ∧ (vector 88 6 0x03).adu.sidx < 89 :=
  ⟨⟨_, rfl⟩, runOn_available _ _ (by decide) (by decide), by decide, fun h => absurd h (by decide), by decide⟩

theorem witness_FourBitCodesResult : (∃ d, Claims.fourBitRule .s4_f = some (d, 15)) ∧ (runOn [0xFF] 18).ByteAvailable ∧
    (runOn [0xFF] 18).adu.sidx < 89 ∧ (vector 79 4 0x0F).ByteAvailable ∧ (vector 79 4 0x0F).adu.sidx < 89 :=
  ⟨⟨_, rfl⟩, runOn_available _ _ (by decide) (by decide), by decide, fun h => absurd h (by decide), by decide⟩

/-- The last code of the track, the last code of an earlier byte, a code inside a byte. -/
theorem witness_SampleCodesAdvance : Claims.codeBits .s2_3 = some 2 ∧ Claims.codeBits .s4_f = some 4 ∧
    (vector 0 6 0x03).ByteAvailable ∧ (vector 0 6 0x03).adu.sidx < 89 ∧ (vector 0 6 0x03).adu.bitpos + 2 = 8 ∧
    (vector 0 6 0x03).unconsumed.toNat < 2 ^ (8 - (vector 0 6 0x03).adu.bitpos) ∧
    (vector 0 6 0x03).adu.bptr + 1 ≠ (vector 0 6 0x03).trkLen[0] ∧
    (runOn [0xFF] 18).ByteAvailable ∧ (runOn [0xFF] 18).adu.bitpos + 4 ≠ 8 ∧
    { runOn [0xFF] 18 with adu := { Adu.reset with bitpos := 4, cur := 0xF } }.adu.bptr + 1 = (runOn [0xFF] 18).trkLen[0] :=
  ⟨rfl, rfl, fun h => absurd h (by decide), by decide, rfl, by decide, by decide, runOn_available _ _ (by decide) (by decide),
    by decide, by decide⟩

theorem witness_SampleCodesFrame : Claims.codeBits .s4_f = some 4 ∧ ∃ t, exec .s4_f (runOn [0xFF] 18) = .next t :=
  ⟨rfl, _, rfl⟩

theorem witness_SampleCodesStop : Claims.codeBits .s2_0 = some 2 ∧ ¬ State.reset.ByteAvailable ∧
    (runOn [0] 89).ByteAvailable ∧ 89 ≤ (runOn [0] 89).adu.sidx :=
  ⟨rfl, fun h => absurd (h rfl) (by decide), runOn_available _ _ (by decide) (by decide), by decide⟩

/-- A step that goes on, with each kind of host, and the step that ends a run. -/
theorem witness_RunRemembersItsBoundaries :
    (∃ t, step (runOn [0] 0) = .next t ∧ t.mode = .aduRun) ∧ (runOn [0] 0).mode = .aduRun ∧
    Claims.LeavesStepToBlock (runOn [0] 0) ∧ Claims.LeavesStepToBlock { runOn [0] 0 with pending := [.yield] } ∧
    Claims.LeavesStepToBlock { runOn [0] 0 with pending := [.wr 17 5] } ∧
    (∃ t, step { runOn [0] 0 with pending := [.wr 17 5] } = .next t ∧ t.mode = .aduRun) ∧
    (∃ t, step { runOn [0] 0 with pending := [.yield] } = .next t ∧ t.mode = .aduRun) ∧
    (∃ t, step { runOn [0] 0 with adu := { Adu.reset with bitpos := 6 } } = .next t ∧ t.mode = .idle) :=
  ⟨⟨_, rfl, rfl⟩, rfl, .inl rfl, .inr (.inr ⟨_, rfl⟩), .inr (.inl ⟨_, _, _, rfl, .inr (.inr (.inr (by decide)))⟩),
    ⟨_, rfl, rfl⟩, ⟨_, rfl, rfl⟩, _, rfl, rfl⟩

/-- The last track, the greatest step index, a track that ends with the source. -/
theorem witness_StartOfPresentTrack : (p6 4).err.code = 0 ∧ 79 ≤ 79 ∧ (p6 4).trkLen[0] ≠ 0 ∧
    (p6 4).trkBase[0].toNat + (p6 4).trkLen[0].toNat = (p6 4).srcSize.toNat := by decide

theorem witness_StartOfAbsentTrack : (p6 4).err.code = 0 ∧ (p6 4).trkLen[4] = 0 := by decide

/-- The first value beyond each range, and a track one byte too long. -/
theorem witness_StartFaultsInOrder : (p6 5).err.code = 0 ∧ 5 ≤ 5 ∧ 4 < 5 ∧ 79 < 80 ∧ (p6 5).trkLen[0] ≠ 0 ∧
    (p6 5).srcSize.toNat < (p6 5).trkBase[0].toNat + (p6 5).trkLen[0].toNat := by decide

theorem witness_LayerDecodeUnimplemented : State.reset.err.code = 0 := rfl

theorem witness_CursorInit : (cursorB 0x756 3 2).err.code = 0 := rfl

/-- Exactly the bits the window holds; the source is exhausted. -/
theorem witness_ReadWithoutRefill : (cursorB 0x3A 8 6).err.code = 0 ∧ (cursorB 0x3A 8 6).bcu.bidx + (8 : Nat) ≤ 16 := by decide

/-- C4's read, and the widest read with the fullest window that needs a refill. -/
theorem witness_ReadWithRefill : (cursorB 0xE 5 4).err.code = 0 ∧ (cursorB 0xE 5 4).bcu.Inv ∧
    16 < (cursorB 0xE 5 4).bcu.bidx + (16 : Nat) ∧ (cursorB 0xE 5 4).bcu.bwp.toNat + 2 ≤ (cursorB 0xE 5 4).srcSize.toNat ∧
    (cursorB 0x7FFF 1 5).bcu.Inv ∧ 16 < (cursorB 0x7FFF 1 5).bcu.bidx + (16 : Nat) ∧
    (cursorB 0x7FFF 1 5).bcu.bwp.toNat + 2 ≤ (cursorB 0x7FFF 1 5).srcSize.toNat :=
  ⟨rfl, ⟨by decide, by decide, by decide⟩, by decide, by decide, ⟨by decide, by decide, by decide⟩, by decide, by decide⟩

/-- B7: one byte is left; the counts 0 and 17 stand in their hypotheses. -/
theorem witness_ReadFaultsInOrder : (cursorB 0 16 6).err.code = 0 ∧ 16 < (cursorB 0 16 6).bcu.bidx + (1 : Nat) ∧
    (cursorB 0 16 6).srcSize.toNat < (cursorB 0 16 6).bcu.bwp.toNat + 2 := by decide

/-- B1 to B3's widths, which succeed. -/
theorem witness_CursorDeliversTheStream : (cursorB 0 16 0).err.code = 0 ∧
    (∃ s1, exec .bcuInit (cursorB 0 16 0) = .next s1 ∧ (Claims.readFields [3, 5, 8] s1).isSome) ∧ [3, 5, 8] ≠ [] ∧
    ∀ n ∈ [3, 5, 8], 1 ≤ n ∧ n ≤ 16 := ⟨rfl, ⟨_, rfl, by decide⟩, by decide, by decide⟩

/-- For ShortTableLookups, CompositeTableLookup, LineTableLookup and TableIndexFaults: the last legal and the first illegal
index of each table. -/
theorem witness_table_indices : State.reset.err.code = 0 ∧ 31 < 32 ∧ 6560 < 6561 ∧ 32 ≤ 32 ∧ 6561 ≤ 6561 := by decide

theorem witness_TableEntriesDistinct : 0 < 6561 ∧ 6560 < 6561 ∧ 0 ≠ 6560 ∧ State.reset.err.code = 0 ∧
    (∃ t, exec (.ltuLine 0) State.reset = .next t) ∧ ∃ u, exec (.ltuLine 6560) State.reset = .next u :=
  ⟨by decide, by decide, by decide, rfl, ⟨_, rfl⟩, _, rfl⟩

/-- The last byte and the byte past the end, for both widths. -/
theorem witness_MemReadBounds : 6 + 1 ≤ (cursorB 0 16 0).srcSize.toNat ∧ (cursorB 0 16 0).srcSize.toNat < 7 + 1 ∧
    5 + 2 ≤ (cursorB 0 16 0).srcSize.toNat ∧ (cursorB 0 16 0).srcSize.toNat < 6 + 2 := by decide

theorem witness_SourceHoldsLastPlacedByte : { withSource [1, 2] with pending := [.srcPut 1 0] }.src.wf = true ∧
    (withSource [1, 2]).mode = .idle := by decide

/-- A run on a track of two bytes at 4, the host about to place a byte. -/
def placing (addr : Word) : State := { p6 2 with mode := .aduRun, pending := [.srcPut addr 9] }

/-- The first byte of the track, its last, the byte after it, the byte below its base. -/
theorem witness_RunningTrackIsNotChanged : (placing 4).mode = .aduRun ∧ (placing 4).pending = .srcPut 4 9 :: [] ∧
    (placing 4).src.wf = true ∧ (placing 4).trkBase[(placing 4).adu.atrk].toNat = 4 ∧
    (placing 4).trkLen[(placing 4).adu.atrk].toNat = 2 ∧ 4 ≤ (4#32).toNat ∧ (5#32).toNat < 4 + 2 ∧
    4 + 2 ≤ (6#32).toNat ∧ (3#32).toNat < 4 := by decide

/-- R74 at the track's edges: its two bytes are kept, its neighbours change. -/
theorem test_srcPut_during_run : ([3#32, 4#32, 5#32, 6#32].map fun a => match step (placing a) with
      | .next t => some ([3, 4, 5, 6].map t.src.read)
      | _ => none) = [some [9, 0, 0, 0], none, none, some [0, 0, 0, 9]] := by decide

/-- A read in `IDLE`; during a run the last register before the mirrors and the first after them. -/
theorem witness_RegisterReads : { State.reset with pending := [.rd 20] }.pending = .rd 20 :: [] ∧ State.reset.mode = .idle ∧
    17 < 18 ∧ 25 < 26 := by decide

theorem witness_MirrorReadsDuringRun : { runOn [0] 0 with pending := [.rd 18] }.pending = .rd 18 :: [] ∧
    (runOn [0] 0).mode = .aduRun ∧ 18 ≤ 25 := by decide

theorem witness_RegisterWritesStore : { State.reset with pending := [.wr 12 5] }.mode = .idle ∧
    { State.reset with pending := [.wr 12 5] }.pending = .wr (8 + (4 : Fin 5).val) 5 :: [] ∧
    { State.reset with pending := [.wr 17 5] }.pending = .wr (13 + (4 : Fin 5).val) 5 :: [] := by decide

theorem witness_StrayWritesIgnored : { State.reset with pending := [.wr 2 5] }.pending = .wr 2 5 :: [] ∧
    ¬ Claims.Waits 2 ∧ ¬ Claims.Waits 18 ∧ ¬ Claims.Waits 29 :=
  ⟨rfl, by unfold Claims.Waits; decide, by unfold Claims.Waits; decide, by unfold Claims.Waits; decide⟩

theorem witness_HardResetInEitherMode : { runOn [0] 0 with pending := [.hardReset] }.pending = .hardReset :: [] := rfl

theorem witness_IdleBlockDoesNothing : State.reset.mode = .idle ∧ State.reset.pending = [] ∧
    { State.reset with pending := [.yield] }.pending = .yield :: [] := by decide

/-- A fault is entered by a command, and by a reserved opcode. -/
theorem witness_FaultsArePrecise : ([0x08000000#32, 0xFF000000].all fun w => match step (command w) with
      | .next t => decide (t.err ≠ (command w).err) | _ => false) = true ∧
    (command 0x08000000).pending = .wr 0 0x08000000 :: [] ∧ Claims.opc 0x08000000 ≠ 0x09 ∧ Claims.opc 0xFF000000 ≠ 0x0A := by
  decide

theorem witness_HeldFaultStays : (∃ t, step { faulted with pending := [.wr 0 0x01000000] } = .next t) ∧
    faulted.err.code ≠ 0 ∧ Claims.opc 0x01000000 ≠ 0x09 ∧ Claims.opc 0x01000000 ≠ 0x0A :=
  ⟨⟨_, rfl⟩, by decide, by decide, by decide⟩

/-- For OutputIsAppendOnly and BlockWritesNoMemory: a step of a run and a command. -/
theorem witness_steps : (∃ t, step (runOn [0] 0) = .next t) ∧ (runOn [0] 0).pending = [] ∧
    (∃ t, step (command 0x08000000) = .next t) ∧ (command 0x08000000).pending = .wr 0 0x08000000 :: [] :=
  ⟨⟨_, rfl⟩, rfl, ⟨_, rfl⟩, rfl⟩

theorem witness_UnitsAreDisjoint : (∃ t, exec (.aduStart 0 79) (p6 4) = .next t) ∧ (∃ t, exec .s4_f (runOn [0xFF] 18) = .next t) ∧
    (∃ t, exec (.bcuRead 3) (cursorB 0 16 0) = .next t) ∧ ∃ t, exec (.ltuT3 6560) State.reset = .next t :=
  ⟨⟨_, rfl⟩, ⟨_, rfl⟩, ⟨_, rfl⟩, _, rfl⟩

theorem runOn_adu_inv : (runOn [0x55] 0).adu.Inv := by constructor <;> decide

theorem runOn_bcu_inv : (runOn [0x55] 0).bcu.Inv := by constructor <;> decide

theorem runOn_run_inv : (runOn [0x55] 0).RunInv := ⟨by decide, by decide, rfl, rfl, rfl⟩

theorem runOn_src_wf : (runOn [0x55] 0).src.wf = true := by decide

/-- A run at its start meets the invariant, whatever the host is about to do. -/
theorem runOn_inv (p : List HostAction) : { runOn [0x55] 0 with pending := p }.Inv :=
  ⟨runOn_adu_inv, runOn_bcu_inv, fun _ => ⟨runOn_run_inv.1, runOn_run_inv.2, rfl, rfl, rfl⟩, fun _ => rfl,
    fun _ h => (List.not_mem_nil h).elim, Nat.le_refl 0, fun _ h => (List.not_mem_nil h).elim, fun h => absurd h Bool.false_ne_true,
    Nat.zero_le 7, fun _ => rfl, runOn_src_wf⟩

theorem witness_StepKeepsInvariant : (runOn [0x55] 0).Inv ∧ ∃ t, step (runOn [0x55] 0) = .next t :=
  ⟨runOn_inv [], _, rfl⟩

/-- A state that goes on, and the one whose host breaks its duty. -/
theorem witness_SafeStatesNeverStop : (runOn [0x55] 0).Inv ∧ { runOn [0x55] 0 with pending := [.srcPut 0 1] }.Inv :=
  ⟨runOn_inv [], runOn_inv _⟩

/-- The same state with a write that waits. -/
theorem witness_WritesWaitDuringRun : { runOn [0x55] 0 with pending := [.wr 0 0] }.Inv ∧ (runOn [0x55] 0).mode = .aduRun ∧
    { runOn [0x55] 0 with pending := [.wr 0 0] }.pending = .wr 0 0 :: [] ∧ Claims.Waits 0 :=
  ⟨runOn_inv _, rfl, rfl, .inl rfl⟩

theorem witness_RunsEnd : (runOn [0x55] 0).Inv ∧ (runOn [0x55] 0).mode = .aduRun ∧ (runOn [0x55] 0).pending = [] :=
  ⟨runOn_inv [], rfl, rfl⟩

/-- P6 row 17's start, with the greatest step index, the track ending with the source; and an absent track. -/
theorem witness_RunComputesDecode : Claims.AboutToStart { p6 4 with pending := [.wr 0 (Claims.startWord 0 79)] } 0 79 ∧
    Claims.AboutToStart { p6 4 with pending := [.wr 0 (Claims.startWord 4 0)] } 4 0 :=
  ⟨⟨rfl, rfl, rfl, by decide, by decide⟩, ⟨rfl, rfl, rfl, by decide, by decide⟩⟩

/-- Two machines with the same bytes in different places and in different tracks. -/
theorem witness_RunsDependOnTrackOnly :
    Claims.AboutToStart { p6 4 with pending := [.wr 0 (Claims.startWord 0 0)] } 0 0 ∧
    Claims.AboutToStart { p6 4 with trkLen := State.reset.trkLen.set 3 4, out := [16], pending := [.wr 0 (Claims.startWord 3 0)] } 3 0 ∧
    Claims.trackBytes (p6 4) 0 = Claims.trackBytes { p6 4 with trkLen := State.reset.trkLen.set 3 4 } 3 ∧
    (∃ t, Sys2Proof.core.run (1 + 0) { p6 4 with pending := [.wr 0 (Claims.startWord 0 0)] } = .next t) :=
  ⟨⟨rfl, rfl, rfl, by decide, by decide⟩, ⟨rfl, rfl, rfl, by decide, by decide⟩, by decide, _, rfl⟩

theorem witness_OnlyPredMod4096Shows : (runOn [0x55] 0).pending = [] ∧
    ∃ t, Sys2Proof.core.run 1 (runOn [0x55] 0) = .next t := ⟨rfl, _, rfl⟩

/-- The document's scenario E1: four zero bytes. -/
theorem witness_ZeroTrackIsSilent : Claims.AboutToStart { p6 4 with pending := [.wr 0 (Claims.startWord 0 0)] } 0 0 ∧
    ∀ b ∈ Claims.trackBytes { p6 4 with pending := [.wr 0 (Claims.startWord 0 0)] } 0, b = 0 :=
  ⟨⟨rfl, rfl, rfl, by decide, by decide⟩, by decide⟩

/-- A word of each defined opcode, with every operand bit set. -/
theorem witness_OpcodeSelectsInstruction : ([0x00FFFFFF#32, 0x01FFFFFF, 0x02FFFFFF, 0x03FFFFFF, 0x04FFFFFF, 0x05FFFFFF, 0x06FFFFFF,
    0x07FFFFFF, 0x08FFFFFF, 0x09FFFFFF, 0x0AFFFFFF].map Claims.opc) = List.range 11 := by decide

/-- Two samples; a step that emits one and a step that does not. -/
theorem witness_OutputBytesAreLittleEndian : { State.reset with out := [0x7FF0, 0x8000] }.out[1]? = some 0x8000 ∧
    (∃ t, step (runOn [0xFF] 18) = .next t ∧ t.out ≠ []) ∧ (runOn [0xFF] 18).pending = [] ∧
    (∃ t, step (command 0x08000000) = .next t) ∧ (command 0x08000000).pending = .wr 0 0x08000000 :: [] :=
  ⟨rfl, ⟨_, rfl, List.cons_ne_nil _ _⟩, rfl, ⟨_, rfl⟩, rfl⟩

end Sys2Proof.Tests
end

section
/-! Every step keeps the invariant of the machine (R192): the sample step, each command, each action of the host. -/

namespace Sys2Proof.Machine

/-! ### Commands are no sample codes -/

/-- A command word never encodes a sample code (R97). -/
theorem sampleParams_of_decode_cw {w : Word} {i : Instr} (h : decode (.cw w) = .ok i) :
    sampleParams Config.tables i = none := by
  rw [decode_cw] at h
  split at h <;> cases h <;> rfl

/-! ### The codec registers after a sample step -/

/-- `BPTR` does not wrap below the end of a track (R26). -/
theorem bptr_succ_toNat (p : Word) (h : p.toNat + 1 < 2 ^ 32) : (p + 1).toNat = p.toNat + 1 := BitVec.toNat_add_of_lt h

/-- A code moves the position inside the track by its width (R167). -/
theorem sampleRegs_position (w : Nat) (d adj : Int) (b : Byte) (a : Adu) (hp : a.bptr.toNat + 1 < 2 ^ 32) :
    8 * (sampleRegs w d adj b a).bptr.toNat + (sampleRegs w d adj b a).bitpos = 8 * a.bptr.toNat + a.bitpos + w := by
  by_cases h8 : a.bitpos + w = 8
  · obtain ⟨hbit, hptr⟩ := sampleRegs_endsByte w d adj b a h8
    rw [hbit, hptr, bptr_succ_toNat _ hp]
    omega
  · obtain ⟨hbit, hptr⟩ := sampleRegs_insideByte w d adj b a h8
    rw [hbit, hptr]
    omega

/-- A sample step that takes the code the state selects keeps the codec's invariant (R192 a to g). -/
theorem sampleRegs_inv (d adj : Int) (b : Byte) (a : Adu) (h : a.Inv) (hb : b.toNat < 2 ^ (8 - a.bitpos))
    (hp : a.bptr.toNat + 1 < 2 ^ 32) : (sampleRegs (codeWidth a) d adj b a).Inv := by
  obtain ⟨hw, h8⟩ := codeWidth_fits a h.bitpos_mem
  have hpos := sampleRegs_position (codeWidth a) d adj b a hp
  have hcur := shiftRight_lt b a.bitpos (codeWidth a) hb h8
  have hsidx := clamp_le (a.sidx + adj) 0 79 (by decide)
  have hge := le_clamp d (-2048) 2047 (by decide)
  have hle := clamp_le d (-2048) 2047 (by decide)
  obtain ⟨epred, esidx, ediff, ecur, enout, -⟩ := sampleRegs_tail (codeWidth a) d adj b a
  have hbit := h.bitpos_mem
  simp only [List.mem_cons, List.not_mem_nil, or_false] at hbit
  have hbit' : (sampleRegs (codeWidth a) d adj b a).bitpos ∈ [0, 2, 4, 6] ∧
      (b >>> codeWidth a).toNat < 2 ^ (8 - (sampleRegs (codeWidth a) d adj b a).bitpos) := by
    by_cases hend : a.bitpos + codeWidth a = 8
    · rw [(sampleRegs_endsByte _ d adj b a hend).1]
      exact ⟨by simp, (b >>> codeWidth a).isLt⟩
    · rw [(sampleRegs_insideByte _ d adj b a hend).1]
      exact ⟨by simp only [List.mem_cons, List.not_mem_nil, or_false]; omega, hcur⟩
  have := h.pred_ge
  have := h.pred_le
  have := h.nout_le
  have := h.nout_ge
  exact
    { sidx_le := by omega
      diff_ge := by omega
      diff_le := by omega
      bitpos_mem := hbit'.1
      cur_lt := by rw [ecur]; exact hbit'.2
      pred_ge := by rw [epred, enout]; push_cast; omega
      pred_le := by rw [epred, enout]; push_cast; omega
      nout_le := by omega
      nout_ge := by omega }

/-! ### The state after a sample step of a run -/

/-- A run that goes on has a byte left (R168, R192 d). -/
theorem sampleRegs_bptr_lt (w : Nat) (d adj : Int) (b : Byte) (s : State) (h : s.RunInv)
    (hg : runEnded (sampleRegs w d adj b s.adu) s = false) :
    (sampleRegs w d adj b s.adu).bptr.toNat < s.trkLen[s.adu.atrk].toNat := by
  have hlt := h.bptr_lt
  have hlen := s.trkLen[s.adu.atrk].isLt
  obtain ⟨-, -, -, -, -, etrk⟩ := sampleRegs_tail w d adj b s.adu
  by_cases h8 : s.adu.bitpos + w = 8
  · obtain ⟨hbit, hptr⟩ := sampleRegs_endsByte w d adj b s.adu h8
    have hne : s.adu.bptr + 1 ≠ s.trkLen[s.adu.atrk] := by
      simpa [runEnded, hbit, hptr, etrk] using hg
    have hadd := bptr_succ_toNat s.adu.bptr (by omega)
    have hne' : (s.adu.bptr + 1).toNat ≠ s.trkLen[s.adu.atrk].toNat := fun e => hne (BitVec.eq_of_toNat_eq e)
    rw [hptr]
    omega
  · rw [(sampleRegs_insideByte w d adj b s.adu h8).2]
    exact hlt

section

variable {a : Adu} {s : State}

/-- Where a sample step does not end its run, the run's invariant is kept (R168, R43). -/
theorem emitSample_runInv (hr : s.RunInv) (htrk : a.atrk = s.adu.atrk)
    (hleft : runEnded a s = false → a.bptr.toNat < s.trkLen[s.adu.atrk].toNat)
    (hm : (emitSample a s).mode = .aduRun) : (emitSample a s).RunInv := by
  cases hend : runEnded a s with
  | true => rw [(emitSample_ended a s hend).1] at hm; exact nomatch hm
  | false =>
    obtain ⟨-, edone, -⟩ := emitSample_goesOn a s hend
    exact
      { bptr_lt := by simpa [htrk] using hleft hend
        inside := by simpa [htrk] using hr.inside
        not_done := edone.trans hr.not_done
        not_empty := by simpa using hr.not_empty
        no_fault := by simpa using hr.no_fault }

/-- The boundaries a sample step leaves on the record are of its own run, and none where it ends the run (R41). -/
theorem emitSample_history (hm : s.mode = .aduRun)
    (hhist : ∀ x ∈ s.history, x.atrk = s.adu.atrk ∧ x.nout < s.adu.nout) (htrk : a.atrk = s.adu.atrk)
    (hnout : a.nout = s.adu.nout + 1) :
    ((emitSample a s).mode = .idle → (emitSample a s).history = []) ∧
      ∀ x ∈ (emitSample a s).history, x.atrk = a.atrk ∧ x.nout < a.nout := by
  cases hend : runEnded a s with
  | true =>
    obtain ⟨-, -, ehist⟩ := emitSample_ended a s hend
    simp [ehist]
  | false =>
    obtain ⟨emode, -, ehist⟩ := emitSample_goesOn a s hend
    rw [emode, ehist, hm, htrk, hnout]
    refine ⟨nofun, List.forall_mem_cons.2 ⟨⟨rfl, Nat.lt_succ_self _⟩, fun x hx => ?_⟩⟩
    exact ⟨(hhist x hx).1, Nat.lt_succ_of_lt (hhist x hx).2⟩

/-- A sample step that leaves a codec of the same track at its next boundary keeps the invariant. -/
theorem emitSample_inv (hi : s.Inv) (hm : s.mode = .aduRun) (ha : a.Inv) (htrk : a.atrk = s.adu.atrk)
    (hnout : a.nout = s.adu.nout + 1)
    (hleft : runEnded a s = false → a.bptr.toNat < s.trkLen[s.adu.atrk].toNat) : (emitSample a s).Inv := by
  have hr := hi.run hm
  obtain ⟨hidle, hhist⟩ := emitSample_history hm hi.history_run htrk hnout
  exact
    { adu := by simpa using ha
      bcu := by simpa using hi.bcu
      run := emitSample_runInv hr htrk hleft
      history_idle := hidle
      history_run := by simpa using hhist
      nout_le_out := by simpa [hnout] using hi.nout_le_out
      out_scaled := by
        rw [emitSample_out, List.forall_mem_append]
        exact ⟨hi.out_scaled, List.forall_mem_singleton.2 (sampleOf_scaled _)⟩
      empty_done := by simp [hr.not_empty]
      err_code_le := by simpa using hi.err_code_le
      err_none := by simpa using hi.err_none
      src_wf := by simpa using hi.src_wf }

end

/-- A sample step of a run keeps the invariant. -/
theorem runSample_keeps_inv {s t : State} (hi : s.Inv) (hm : s.mode = .aduRun) (h : runSample s = .next t) : t.Inv := by
  obtain ⟨d, adj, -, -, -, rfl⟩ := runSample_inv s t h
  have hr := hi.run hm
  have hptr : s.adu.bptr.toNat + 1 < 2 ^ 32 := by
    have := hr.bptr_lt
    have := s.trkLen[s.adu.atrk].isLt
    omega
  obtain ⟨-, -, -, -, hnout, htrk⟩ :=
    sampleRegs_tail (codeWidth s.adu) (d (stepSize Config.tables s.adu.sidx)) adj s.unconsumed s.adu
  exact emitSample_inv hi hm (sampleRegs_inv _ _ _ _ hi.adu (unconsumed_lt s hi.adu.cur_lt) hptr) htrk hnout
    (sampleRegs_bptr_lt _ _ _ _ s hr)

/-! ### Commands, which run in `IDLE` -/

/-- Fault entry keeps the invariant: the code is one of R261's and is not 0 (R273). -/
theorem raiseErr_inv (k : ErrKind) (o : Byte) (n : Nat) {s : State} (h : s.Inv) (hm : s.mode = .idle) :
    (raiseErr k o n s).Inv :=
  { h with
    run := by simp [hm]
    err_code_le := k.code_toNat_le
    err_none := fun h0 => absurd h0 k.code_ne_zero }

/-- `CLR_ERR` keeps the invariant (R274). -/
theorem clearErr_inv {s : State} (h : s.Inv) (hm : s.mode = .idle) : (clearErr s).Inv :=
  { h with
    run := by simp [hm]
    err_code_le := Nat.zero_le 7
    err_none := fun _ => rfl }

/-- The codec registers at the start of a track are the ones a reset leaves, but for `SIDX` and `ATRK` (R234). -/
theorem startAdu_inv (k : Fin 5) (s0 : Nat) (h : s0 ≤ 79) : (startAdu k s0).Inv :=
  { sidx_le := h
    diff_ge := (by decide : (-2048 : Int) ≤ 0)
    diff_le := (by decide : (0 : Int) ≤ 2047)
    bitpos_mem := List.mem_cons_self
    cur_lt := (by decide : 0 < 2 ^ 8)
    pred_ge := Int.le_refl 0
    pred_le := Int.le_refl 0
    nout_le := Nat.le_refl 0
    nout_ge := Nat.le_refl 0 }

theorem resetAdu_inv : State.reset.adu.Inv := startAdu_inv 0 0 (Nat.zero_le 79)

/-- The empty window meets the cursor's invariant wherever it begins (R141, R145). -/
theorem emptyWindow_inv (bwp : Word) : ({ bval := 0, bidx := 16, bwp := bwp } : Bcu).Inv :=
  ⟨(by decide : (0 : Int) ≤ 16), Int.le_refl 16, Nat.zero_lt_one⟩

/-- Every register at its reset value meets the invariant, whatever scaled samples and canonical source are kept. -/
theorem resetBlock_inv (out : List Half) (s : State) (ho : ∀ x ∈ out, x.toNat % 16 = 0) (hw : s.src.wf = true) :
    (resetBlock out s).Inv :=
  { adu := resetAdu_inv
    bcu := emptyWindow_inv 0
    run := nofun
    history_idle := fun _ => rfl
    history_run := nofun
    nout_le_out := Nat.zero_le _
    out_scaled := ho
    empty_done := nofun
    err_code_le := Nat.zero_le 7
    err_none := fun _ => rfl
    src_wf := hw }

/-- A present track that passes the range check lies inside the source (R264). -/
theorem inside_of_trackOutside {k : Fin 5} {s : State} (hlen : s.trkLen[k] ≠ 0) (hk : trackOutside k s = false) :
    s.trkBase[k].toNat + s.trkLen[k].toNat ≤ s.srcSize.toNat := by
  simpa only [trackOutside, hlen, ne_eq, not_false_eq_true, decide_true, Bool.true_and, decide_eq_false_iff_not,
    Nat.not_lt] using hk

/-- An accepted `ADU_START` keeps the invariant: the run it starts has a byte and lies inside the source (R234, R162). -/
theorem acceptStart_inv (k : Fin 5) (s0 : Nat) {s : State} (h : s.Inv) (hm : s.mode = .idle) (h0 : s.err.code = 0)
    (hs0 : s0 ≤ 79) (hk : trackOutside k s = false) : (acceptStart k s0 s).Inv := by
  have hhist := h.history_idle hm
  unfold acceptStart
  simp only
  split
  · exact
      { h with
        adu := startAdu_inv k s0 hs0
        run := by simp [hm]
        history_run := by simp [hhist]
        nout_le_out := Nat.zero_le _
        empty_done := fun _ => rfl }
  · rename_i hlen
    exact
      { h with
        adu := startAdu_inv k s0 hs0
        run := fun _ =>
          { bptr_lt := by
              simp only [startRun_adu, startRun_trkLen, startAdu]
              exact Nat.pos_of_ne_zero fun e => hlen (BitVec.eq_of_toNat_eq e)
            inside := inside_of_trackOutside hlen hk
            not_done := rfl
            not_empty := rfl
            no_fault := h0 }
        history_idle := nofun
        history_run := nofun
        nout_le_out := Nat.zero_le _
        empty_done := nofun }

/-- Delivering bits from a cursor that holds them keeps the invariant (R144, R145). -/
theorem deliver_inv (n : Nat) (b : Bcu) {s : State} (h : s.Inv) (hm : s.mode = .idle) (hb : (afterExtract n b).Inv) :
    (deliver n b s).Inv :=
  { h with
    bcu := hb
    run := by simp [hm] }

/-- A refilled window meets the cursor's invariant once more than its `BIDX` of bits are taken (R143 to R145). -/
theorem afterExtract_refill_inv (n : Nat) (s : State) (b : Bcu) (h : s.bcu.Inv) (hn : n ≤ 16)
    (hlow : 16 < s.bcu.bidx + n) (hb : refill s = some b) : (afterExtract n b).Inv := by
  have hinside : s.bcu.bwp.toNat + 2 ≤ s.srcSize.toNat := by
    by_contra hc
    rw [refill_outside s (by omega)] at hb
    exact nomatch hb
  obtain ⟨b', hb', hidx, -, -, hval⟩ := refill_inside s h (by omega) hinside
  obtain rfl : b' = b := Option.some.inj (hb'.symm.trans hb)
  have := h.bidx_nonneg
  have := h.bidx_le
  refine afterExtract_inv n b' (by omega) (by omega) ?_
  rwa [hidx, show (16 - (s.bcu.bidx - 16)).toNat = 16 + (16 - s.bcu.bidx).toNat by omega]

/-- Every instruction but a sample code, executed in `IDLE`, keeps the invariant. -/
theorem exec_command_keeps_inv {i : Instr} {s t : State} (hi : s.Inv) (hm : s.mode = .idle)
    (hc : sampleParams Config.tables i = none) (h : exec i s = .next t) : t.Inv := by
  cases exec_effect i s t h with
  | sample w d adj hp => exact nomatch hc.symm.trans hp
  | unchanged => exact hi
  | raised => exact raiseErr_inv _ _ _ hi hm
  | cleared => exact clearErr_inv hi hm
  | softReset => exact resetBlock_inv _ _ hi.out_scaled hi.src_wf
  | started h0 k s0 _ hs0 hk => exact acceptStart_inv k s0 hi hm h0 hs0 hk
  | bcuInit =>
    exact
      { hi with
        bcu := emptyWindow_inv s.arg
        run := by simp [hm] }
  | read _ n _ _ _ h3 =>
    have := hi.bcu.bidx_nonneg
    exact deliver_inv n _ hi hm (afterExtract_inv n _ (by omega) h3 hi.bcu.bval_lt)
  | refilled _ n _ _ h2 h3 b hb => exact deliver_inv n b hi hm (afterExtract_refill_inv n s b hi.bcu h2 h3 hb)
  | looked => exact { hi with run := by simp [hm] }

/-! ### The host's actions -/

/-- A performed register write keeps the invariant: during a run it stores nothing (R43, R231). -/
theorem storeRegister_inv (index : Nat) (v : Word) {s : State} (h : s.Inv)
    (hw : s.mode = .aduRun → writeWaits index = false) : (storeRegister index v s).Inv := by
  cases hm : s.mode with
  | aduRun =>
    rw [storeRegister_stray index v s (hw hm)]
    exact h
  | idle =>
    rw [storeRegister_frame]
    exact { h with run := by simp [hm] }

/-- A register read keeps the invariant (R232). -/
theorem hostRead_inv (index : Nat) {s : State} (h : s.Inv) : (hostRead index s).Inv := by
  rw [hostRead_frame]
  exact { h with run := fun hm => { h.run hm with } }

/-- Placing a source byte keeps the invariant (R60). -/
theorem put_inv (addr : Word) (b : Byte) {s : State} (h : s.Inv) :
    ({ s with src := s.src.put addr.toNat b } : State).Inv :=
  { h with
    run := fun hm => { h.run hm with }
    src_wf := Memory.put_wf _ _ _ addr.isLt h.src_wf }

/-- A reserved opcode keeps the invariant (R237). -/
theorem illegalCommand_inv (w : Word) {s : State} (h : s.Inv) (hm : s.mode = .idle) : (illegalCommand w s).Inv := by
  unfold illegalCommand unlessFaulted
  split
  · exact raiseErr_inv _ _ _ h hm
  · exact h

/-- Settles O52: each effect of a step keeps the invariant. -/
theorem stepKeepsInvariant : Obligations.StepKeepsInvariant := by
  intro s t hi h
  cases step_effect s t h with
  | sample p hm _ _ hr => exact runSample_keeps_inv (hi.withPending p) hm hr
  | idle p => exact hi.withPending p
  | command w p hm _ i hd _ he => exact exec_command_keeps_inv (hi.withPending p) hm (sampleParams_of_decode_cw hd) he
  | illegal w p hm => exact illegalCommand_inv w (hi.withPending p) hm
  | store index v p _ _ hw => exact storeRegister_inv index v (hi.withPending p) hw
  | read index p => exact hostRead_inv index (hi.withPending p)
  | put addr b p => exact put_inv addr b (hi.withPending p)
  | hardReset p => exact resetBlock_inv [] _ nofun hi.src_wf

/-- Settles O51: it is the block's reset, with no sample and no source byte. -/
theorem resetMeetsInvariant : Obligations.ResetMeetsInvariant := resetBlock_inv [] State.reset nofun (by decide)

end Sys2Proof.Machine
end

/-! The sample codes: what they leave unchanged (R33, R161), where they stop, and what a run records (R41). -/

namespace Sys2Proof.Machine

/-! ### Every sample code is a sample step -/

/-- The sample codes of R91 and R92 are those with parameters, and their widths agree. -/
theorem sampleParams_of_codeBits {i : Instr} {w : Nat} (h : Claims.codeBits i = some w) :
    ∃ d adj, sampleParams Config.tables i = some (w, d, adj) := by
  cases i <;> cases h <;> exact ⟨_, _, rfl⟩

/-- A sample code has a meaning that is a sample step of its width. -/
theorem exec_of_codeBits {i : Instr} {w : Nat} (h : Claims.codeBits i = some w) :
    ∃ d adj, ∀ s, exec i s = sampleStep Config.tables w d adj s := by
  obtain ⟨d, adj, hp⟩ := sampleParams_of_codeBits h
  exact ⟨d, adj, exec_sample i w d adj hp⟩

/-- Settles O13: a sample step changes the codec registers but `ATRK`, and otherwise only emits its sample. -/
theorem sampleCodesFrame : Obligations.SampleCodesFrame := by
  intro i w hc s t h
  obtain ⟨d, adj, he⟩ := exec_of_codeBits hc
  rw [he] at h
  obtain ⟨-, -, rfl⟩ := sampleStep_inv _ _ _ _ _ _ h
  simp [sampleRegs_tail]

/-! ### Where a sample step stops -/

/-- A sample step without its byte stops (R61, log entry 9). -/
theorem sampleStep_missing (T : Config.Tables) (w : Nat) (d : Nat → Int) (adj : Int) (s : State)
    (h : ¬ s.ByteAvailable) : sampleStep T w d adj s = .fault .fetchPastSource := by
  simp only [sampleStep, currentBits_missing s h]

/-- A sample step with its byte and a step index outside `STEP_TABLE` stops (R44, log entry 9). -/
theorem sampleStep_outOfTable (T : Config.Tables) (w : Nat) (d : Nat → Int) (adj : Int) (s : State)
    (h : s.ByteAvailable) (hs : 89 ≤ s.adu.sidx) : sampleStep T w d adj s = .fault .stepIndexOutOfTable := by
  simp only [sampleStep, currentBits_available s h]
  exact if_neg (Nat.not_lt.2 hs)

/-- Settles O14: the byte missing, the index outside the table, and completion are the three ways of a sample step. -/
theorem sampleCodesStop : Obligations.SampleCodesStop := by
  intro i w hc s
  obtain ⟨d, adj, he⟩ := exec_of_codeBits hc
  rw [he]
  by_cases hb : s.ByteAvailable
  · rcases Nat.lt_or_ge s.adu.sidx 89 with hs | hs
    · rw [sampleStep_next _ _ _ _ _ hb hs]
      simp [hb, hs]
    · rw [sampleStep_outOfTable _ _ _ _ _ hb hs]
      simp [hb, hs]
  · rw [sampleStep_missing _ _ _ _ _ hb]
    simp [hb]

/-! ### A step of a run that the host leaves to the block -/

/-- The registers whose writes wait are those of R231. -/
theorem writeWaits_iff (index : Nat) : writeWaits index = true ↔ Claims.Waits index := by
  simp [writeWaits, Claims.Waits, or_assoc]

/-- A waiting write gives the step of a run to the block and stays pending (R231). -/
theorem step_waitingWrite {s : State} {index : Nat} {v : Word} {rest : List HostAction} (hm : s.mode = .aduRun)
    (hp : s.pending = .wr index v :: rest) (hw : Claims.Waits index) : step s = runSample s := by
  rw [step_actionWaits s _ rest hp (by simp [actionWaits, hm, (writeWaits_iff index).2 hw]), blockStep_run s hm]

/-- Whether the host has nothing to do, its write waits or it yields, the step of a run is a sample step. -/
theorem step_leftToBlock {s : State} (hm : s.mode = .aduRun) (h : Claims.LeavesStepToBlock s) :
    ∃ p, step s = runSample { s with pending := p } := by
  obtain hp | ⟨index, v, rest, hp, hw⟩ | ⟨rest, hp⟩ := h
  · exact ⟨s.pending, by rw [step_nothingPending s hp, blockStep_run s hm]⟩
  · exact ⟨s.pending, step_waitingWrite hm hp hw⟩
  · refine ⟨rest, ?_⟩
    rw [step_performs s _ rest hp rfl]
    exact blockStep_run _ hm

/-- The end test of a sample step decides what stays on the record of boundaries (R168, R41). -/
theorem runSample_history {s t : State} (hm : s.mode = .aduRun) (h : runSample s = .next t) :
    (t.mode = .aduRun → t.history = s.adu :: s.history) ∧ (t.mode = .idle → t.history = []) := by
  obtain ⟨d, adj, -, -, -, rfl⟩ := runSample_inv s t h
  generalize sampleRegs _ _ _ _ _ = a
  cases hend : runEnded a s with
  | true =>
    obtain ⟨emode, -, ehist⟩ := emitSample_ended a s hend
    rw [emode, ehist]
    exact ⟨nofun, fun _ => rfl⟩
  | false =>
    obtain ⟨emode, -, ehist⟩ := emitSample_goesOn a s hend
    rw [emode, ehist, hm]
    exact ⟨fun _ => rfl, nofun⟩

/-- Settles O15: a step left to the block is a sample step, whatever is then pending. -/
theorem runRemembersItsBoundaries : Obligations.RunRemembersItsBoundaries := by
  intro s t hm hl h
  obtain ⟨p, hp⟩ := step_leftToBlock hm hl
  exact runSample_history (s := { s with pending := p }) hm (hp.symm.trans h)

/-- Settles O42: the step is a sample step, which goes on under the invariant and writes no host register. -/
theorem writesWaitDuringRun : Obligations.WritesWaitDuringRun := by
  intro s index v rest hi hm hp hw
  have hsidx : s.adu.sidx < 89 := by have := hi.adu.sidx_le; omega
  obtain ⟨t, ht⟩ := runSample_next s (hi.run hm).byteAvailable hsidx
  refine ⟨t, (step_waitingWrite hm hp hw).trans ht, ?_⟩
  obtain ⟨d, adj, -, -, -, rfl⟩ := runSample_inv s t ht
  simp

end Sys2Proof.Machine

/-! The host's registers: what each reads as (R34 to R42), the fields of `STATUS` (R36), and writes that are ignored. -/

namespace Sys2Proof.Machine

/-! ### The value of a register -/

/-- The five registers of a bank, in order (R40). -/
theorem bank_toList {α : Type} (v : Vector α 5) : v.toList = [v[0], v[1], v[2], v[3], v[4]] := by
  obtain ⟨⟨l⟩, hl⟩ := v
  match l, hl with
  | [_, _, _, _, _], _ => rfl

theorem mapValues_length (a : Adu) (s : State) : (Claims.mapValues a s).length = 29 := by
  simp [Claims.mapValues]

/-- The register map is the list of R42's values, 0 above index 28. -/
theorem registerValue_eq_mapValue (index : Nat) (a : Adu) (s : State) :
    registerValue index a s = Claims.mapValue index a s := by
  rcases Nat.lt_or_ge index 29 with h | h
  · have hdiv : a.pred.fdiv (2 ^ 32) = a.pred / 2 ^ 32 := Int.fdiv_eq_ediv_of_nonneg _ (by decide)
    simp only [Claims.mapValue, Claims.mapValues, bank_toList, hdiv]
    interval_cases index <;> rfl
  · rw [Claims.mapValue, List.getD_eq_default _ _ (by rw [mapValues_length]; exact h)]
    obtain ⟨n, rfl⟩ := Nat.exists_eq_add_of_le' h
    rfl

/-! ### Register reads -/

/-- A read outside the mirrors or outside a run shows the register's value (R232). -/
theorem hostRead_direct (index : Nat) (s : State) (h : s.mode = .idle ∨ index < 18 ∨ 25 < index) :
    hostRead index s = { s with reads := s.reads ++ [⟨index, Claims.mapValue index s.adu s⟩] } := by
  have hn : ¬ (s.mode = .aduRun ∧ isAduMirror index = true) := by
    rintro ⟨hm, hx⟩
    simp only [isAduMirror, Bool.and_eq_true, decide_eq_true_eq] at hx
    simp only [hm, reduceCtorEq, false_or] at h
    omega
  rw [hostRead, if_neg hn, registerValue_eq_mapValue]

/-- A mirror read during a run shows the boundary the free value picks (R41). -/
theorem hostRead_mirror (index : Nat) (s : State) (hm : s.mode = .aduRun) (h1 : 18 ≤ index) (h2 : index ≤ 25) :
    hostRead index s = { s with
      reads := s.reads ++ [⟨index, Claims.mapValue index (mirroredAdu s) s⟩]
      mirrorReads := s.mirrorReads + 1 } := by
  rw [hostRead, if_pos ⟨hm, by simp [isAduMirror, h1, h2]⟩, registerValue_eq_mapValue]

/-- A read is performed at once, in either mode (R232). -/
theorem step_read {s : State} {index : Nat} {rest : List HostAction} (hp : s.pending = .rd index :: rest) :
    step s = .next (hostRead index { s with pending := rest }) := step_performs s _ rest hp rfl

/-- Settles O37: a read outside the mirrors of a run is direct. -/
theorem registerReads : Obligations.RegisterReads := by
  intro s index rest hp h
  exact (step_read hp).trans (congrArg _ (hostRead_direct index { s with pending := rest } h))

/-- Settles O38: the picked boundary is the latest one or on the run's record. -/
theorem mirrorReadsDuringRun : Obligations.MirrorReadsDuringRun := by
  intro s index rest hp hm h1 h2
  refine ⟨mirroredAdu s, mirroredAdu_mem s, ?_⟩
  exact (step_read hp).trans (congrArg _ (hostRead_mirror index { s with pending := rest } hm h1 h2))

/-! ### `STATUS` -/

/-- The flags of `STATUS` from bit 0 on (R36). -/
def statusFlags (s : State) : List Bool :=
  [s.busy, s.done, s.errFlag, s.empty, s.present 0, s.present 1, s.present 2, s.present 3, s.present 4]

theorem flagAt_eq_mul (b : Bool) (i : Nat) : flagAt b i = 2 ^ i * b.toNat := by cases b <;> simp [flagAt]

/-- The number with given binary digits, the lowest first, has them as its bits. -/
theorem testBit_foldr_bit (l : List Bool) (j : Nat) : (l.foldr Nat.bit 0).testBit j = l.getD j false := by
  induction l generalizing j with
  | nil => simp
  | cons b l ih =>
    cases j with
    | zero => simp
    | succ j => simpa [Nat.testBit_bit_succ] using ih j

/-- The flags are the binary digits of `STATUS` (R36). -/
theorem status_eq_flags (s : State) : s.status = BitVec.ofNat 32 ((statusFlags s).foldr Nat.bit 0) := by
  simp only [State.status, statusFlags, flagAt_eq_mul, List.foldr, Nat.bit_val]
  congr 1
  omega

/-- Bit `j` of `STATUS` is the flag with that number, and 0 where there is none. -/
theorem status_getLsbD (s : State) (j : Nat) : s.status.getLsbD j = (statusFlags s).getD j false := by
  rw [status_eq_flags, BitVec.getLsbD_ofNat, testBit_foldr_bit]
  rcases Nat.lt_or_ge j 32 with h | h
  · simp [h]
  · rw [List.getD_eq_default _ _ (Nat.le_trans (by decide : 9 ≤ 32) h), Bool.and_false]

/-- Settles O39: each field is a flag of the list. -/
theorem statusFields : Obligations.StatusFields := by
  intro s
  simp only [status_getLsbD]
  refine ⟨by simp [statusFlags, State.busy], rfl, by simp [statusFlags, State.errFlag], rfl, fun k => ?_, fun j hj => ?_⟩
  · match k with
    | 0 | 1 | 2 | 3 | 4 => simp [statusFlags, State.present]
  · exact List.getD_eq_default _ _ hj

/-! ### Writes that are ignored -/

/-- Settles O41: such a write never waits, is no command and stores nothing. -/
theorem strayWritesIgnored : Obligations.StrayWritesIgnored := by
  intro s index v rest hp hw
  have hwaits : writeWaits index = false := by simpa [← writeWaits_iff] using hw
  have hcmd : index ≠ Reg.cmd := fun h => hw (.inl h)
  rw [step_performs s _ rest hp (by simp [actionWaits, hwaits])]
  simp only [performAction, if_neg hcmd, storeRegister_stray index v _ hwaits]

end Sys2Proof.Machine

/-! Rules of the whole machine: reset (R52, R236), a held fault (R37, R274), the output stream (R51, R67), and which unit an
instruction writes (R33). -/

namespace Sys2Proof.Machine

/-! ### Reset -/

/-- `STATUS` after a reset reads 0 (R52). -/
theorem resetBlock_status (out : List Half) (s : State) : (resetBlock out s).status = 0 :=
  (by decide : State.reset.status = 0)

/-- Every track register is 0 after reset (R52). -/
theorem reset_tracks (k : Fin 5) : State.reset.trkBase[k] = 0 ∧ State.reset.trkLen[k] = 0 := by
  revert k; decide

/-- Settles O43: the table of R52, field by field. -/
theorem resetValues : Obligations.ResetValues :=
  ⟨rfl, rfl, rfl, rfl, rfl, reset_tracks, rfl, rfl, rfl, rfl, rfl, rfl⟩

/-- Settles O21: `SOFT_RESET` is the block's reset with `OUT` kept. -/
theorem softResetValues : Obligations.SoftResetValues := fun s =>
  ⟨resetBlock s.out s, rfl, rfl, rfl, rfl, rfl, rfl, reset_tracks, rfl, rfl, rfl, rfl, rfl, resetBlock_status s.out s, rfl,
    fun _ => rfl, rfl, rfl⟩

/-! ### What a command leaves unchanged -/

/-- An accepted start writes no cursor register (R33). -/
@[simp] theorem acceptStart_bcu (k : Fin 5) (s0 : Nat) (s : State) : (acceptStart k s0 s).bcu = s.bcu := by
  unfold acceptStart; simp only; split <;> rfl

/-- An accepted start emits nothing (R234). -/
@[simp] theorem acceptStart_out (k : Fin 5) (s0 : Nat) (s : State) : (acceptStart k s0 s).out = s.out := by
  unfold acceptStart; simp only; split <;> rfl

/-- No command emits or removes a sample (R51). -/
theorem exec_command_out {i : Instr} {s t : State} (hc : sampleParams Config.tables i = none)
    (h : exec i s = .next t) : t.out = s.out := by
  cases exec_effect i s t h with
  | sample w d adj hp => exact nomatch hc.symm.trans hp
  | started => exact acceptStart_out _ _ s
  | unchanged | raised | cleared | softReset | bcuInit | read | refilled | looked => rfl

/-- A reserved opcode emits nothing (R237). -/
theorem illegalCommand_out (w : Word) (s : State) : (illegalCommand w s).out = s.out := by
  unfold illegalCommand unlessFaulted
  split <;> rfl

/-- Settles O48: only a sample step and the reset input write `OUT`. -/
theorem outputIsAppendOnly : Obligations.OutputIsAppendOnly := by
  intro s t h hreset
  cases step_effect s t h with
  | sample p hm _ _ hr =>
    obtain ⟨d, adj, -, -, -, rfl⟩ := runSample_inv _ t hr
    exact .inr ⟨_, emitSample_out _ _, hm⟩
  | command w p _ _ i hd _ he => exact .inl (exec_command_out (s := { s with pending := p }) (sampleParams_of_decode_cw hd) he)
  | illegal w => exact .inl (illegalCommand_out w _)
  | store index v => rw [storeRegister_frame]; exact .inl rfl
  | read index => rw [hostRead_frame]; exact .inl rfl
  | idle | put => exact .inl rfl
  | hardReset p hp => exact absurd hp (hreset p)

/-! ### A held fault -/

/-- The opcode of a command word is its command's row of the opcode map (R98). -/
theorem opcode_of_decode_cw {w : Word} {i : Instr} (h : decode (.cw w) = .ok i) :
    Laws.Format.opcode i = some (Claims.opc w) := by
  rw [decode_cw] at h
  split at h <;> cases h <;> exact congrArg some (Eq.symm (by assumption))

/-- With a fault held a reserved opcode is dropped (R238). -/
theorem illegalCommand_held (w : Word) (s : State) (h : s.err.code ≠ 0) : illegalCommand w s = s :=
  unlessFaulted_held s _ h

/-- Settles O47: the fault lock drops every command but `CLR_ERR` and `SOFT_RESET`, and no other step writes the group. -/
theorem heldFaultStays : Obligations.HeldFaultStays := by
  intro s t h hheld hcmd hreset
  cases step_effect s t h with
  | sample p _ _ _ hr =>
    obtain ⟨d, adj, -, -, -, rfl⟩ := runSample_inv _ t hr
    exact emitSample_err _ _
  | command w p _ hp i hd _ he =>
    obtain ⟨hclr, hsoft⟩ := hcmd w p hp
    have hopc := opcode_of_decode_cw hd
    have hlocked := exec_faultLocked i { s with pending := p } hheld (sampleParams_of_decode_cw hd)
      (by rintro rfl; exact hclr (Option.some.inj hopc).symm) (by rintro rfl; exact hsoft (Option.some.inj hopc).symm)
    obtain rfl := Host.Outcome.next.inj (hlocked.symm.trans he)
    rfl
  | illegal w p => rw [illegalCommand_held w { s with pending := p } hheld]
  | store index v => rw [storeRegister_frame]
  | read index => rw [hostRead_frame]
  | idle | put => rfl
  | hardReset p hp => exact absurd hp (hreset p)

/-! ### The units -/

/-- `ADU_START` and the sample codes write no cursor register (R33). -/
theorem exec_adu_bcu {i : Instr} {s t : State} (h : exec i s = .next t)
    (hi : (∃ k s0, i = .aduStart k s0) ∨ (Claims.codeBits i).isSome) : t.bcu = s.bcu := by
  cases exec_effect i s t h with
  | sample => exact emitSample_bcu _ _
  | started => exact acceptStart_bcu _ _ _
  | unchanged | raised | cleared | looked => rfl
  | softReset hi' | bcuInit _ hi' | read _ _ hi' | refilled _ _ hi' => subst hi'; simp [Claims.codeBits] at hi

/-- The cursor and table commands write no codec register, emit nothing and start no run (R33). -/
theorem exec_cursor_adu {i : Instr} {s t : State} (h : exec i s = .next t)
    (hi : i = .bcuInit ∨ (∃ n, i = .bcuRead n) ∨ ∃ n, i = .ltuT1 n ∨ i = .ltuT2 n ∨ i = .ltuT3 n ∨ i = .ltuLine n) :
    t.adu = s.adu ∧ t.out = s.out ∧ t.mode = s.mode := by
  cases exec_effect i s t h with
  | sample w d adj hp => obtain rfl | ⟨n, rfl⟩ | ⟨n, rfl | rfl | rfl | rfl⟩ := hi <;> exact nomatch hp
  | unchanged | raised | cleared | bcuInit | read | refilled | looked => exact ⟨rfl, rfl, rfl⟩
  | softReset hi' | started _ _ _ hi' => subst hi'; simp at hi

/-- Settles O50: both directions of the separation. -/
theorem unitsAreDisjoint : Obligations.UnitsAreDisjoint := fun _ _ _ h => ⟨exec_adu_bcu h, exec_cursor_adu h⟩

end Sys2Proof.Machine

/-! The source memory (R60 to R62, R68, R74): its reads, the host's placing of a byte, that the block writes no byte of it, that
no step of a safe state stops by itself (R190), and the output stream as bytes (R62 b, R67). -/

namespace Sys2Proof.Machine

/-! ### Reads -/

/-- Settles O34: both widths inside and outside the source; the byte at the higher address is the high one. -/
theorem memReadBounds : Obligations.MemReadBounds := fun s addr =>
  ⟨memRead1_inside s addr, memRead1_outside s addr, fun h => ⟨_, memRead2_inside s addr h, append_toNat _ _⟩,
    memRead2_outside s addr⟩

/-! ### The host places a byte -/

/-- A byte of the running track lies inside the track, and there is a run (R74). -/
theorem inRunningTrack_iff (addr : Nat) (s : State) :
    inRunningTrack addr s = true ↔ s.mode = .aduRun ∧ s.trkBase[s.adu.atrk].toNat ≤ addr ∧
      addr < s.trkBase[s.adu.atrk].toNat + s.trkLen[s.adu.atrk].toNat := by
  simp [inRunningTrack, and_assoc]

section

variable {s : State} {addr : Word} {b : Byte} {rest : List HostAction}

/-- A change of a byte of the running track is refused (R74). -/
theorem step_put_inTrack (hp : s.pending = .srcPut addr b :: rest) (hr : inRunningTrack addr.toNat s = true) :
    step s = .refused .trackByteChangedDuringRun := by
  rw [step_performs s _ rest hp rfl]
  exact if_pos hr

/-- A change of any other byte is performed, in either mode (R60, R74). -/
theorem step_put_outsideTrack (hp : s.pending = .srcPut addr b :: rest) (hr : inRunningTrack addr.toNat s = false) :
    step s = .next { s with pending := rest, src := s.src.put addr.toNat b } := by
  rw [step_performs s _ rest hp rfl]
  exact if_neg (Bool.eq_false_iff.1 hr)

/-- A performed change shows at its address and nowhere else, and the memory stays canonical (R61). -/
theorem step_put_reads (hw : s.src.wf = true) (hp : s.pending = .srcPut addr b :: rest)
    (hr : inRunningTrack addr.toNat s = false) :
    ∃ t, step s = .next t ∧ t = { s with pending := rest, src := t.src } ∧ t.src.wf = true ∧
      ∀ a, t.src.read a = if a = addr.toNat then b else s.src.read a :=
  ⟨_, step_put_outsideTrack hp hr, rfl, Memory.put_wf _ _ _ addr.isLt hw, Memory.read_put _ _ _ hw⟩

end

/-- Settles O35: in `IDLE` no track is running, so the change is performed. -/
theorem sourceHoldsLastPlacedByte : Obligations.SourceHoldsLastPlacedByte := by
  intro s addr b rest hw hm hp
  exact step_put_reads hw hp (by simp [inRunningTrack, hm])

/-- Settles O36: the two cases are inside and outside the running track. -/
theorem runningTrackIsNotChanged : Obligations.RunningTrackIsNotChanged := by
  intro s addr b rest hm hp
  refine ⟨fun hin => step_put_inTrack hp ((inRunningTrack_iff _ s).2 ⟨hm, hin⟩), fun hout hw => step_put_reads hw hp ?_⟩
  rw [← Bool.not_eq_true, inRunningTrack_iff]
  omega

/-! ### The block writes no memory -/

/-- An accepted start writes no source byte (R68). -/
@[simp] theorem acceptStart_src (k : Fin 5) (s0 : Nat) (s : State) : (acceptStart k s0 s).src = s.src := by
  unfold acceptStart; simp only; split <;> rfl

/-- No instruction writes a source byte (R68). -/
theorem exec_src {i : Instr} {s t : State} (h : exec i s = .next t) : t.src = s.src := by
  cases exec_effect i s t h with
  | sample => exact emitSample_src _ s
  | started => exact acceptStart_src _ _ s
  | unchanged | raised | cleared | softReset | bcuInit | read | refilled | looked => rfl

/-- A reserved opcode writes no source byte (R237). -/
theorem illegalCommand_src (w : Word) (s : State) : (illegalCommand w s).src = s.src := by
  unfold illegalCommand unlessFaulted
  split <;> rfl

/-- Settles O49: of a step's effects only the host's placing of a byte writes the source. -/
theorem blockWritesNoMemory : Obligations.BlockWritesNoMemory := by
  intro s t h hput a
  suffices hsrc : t.src = s.src by rw [hsrc]
  cases step_effect s t h with
  | sample p _ _ _ hr =>
    obtain ⟨d, adj, -, -, -, rfl⟩ := runSample_inv _ t hr
    exact emitSample_src _ _
  | command w p _ _ i _ _ he => exact exec_src (s := { s with pending := p }) he
  | illegal w => exact illegalCommand_src w _
  | store index v => rw [storeRegister_frame]
  | read index => rw [hostRead_frame]
  | put addr b p hp => exact absurd hp (hput addr b p)
  | idle | hardReset => rfl

/-! ### No step of a safe state stops by itself -/

/-- Under the invariant the block's own step goes on: a run has its byte and its step size (R162, R190). -/
theorem blockStep_next {s : State} (h : s.Inv) : ∃ t, blockStep s = .next t := by
  cases hm : s.mode with
  | idle => exact ⟨s, blockStep_idle s hm⟩
  | aduRun =>
    have hsidx : s.adu.sidx < 89 := by have := h.adu.sidx_le; omega
    rw [blockStep_run s hm]
    exact runSample_next s (h.run hm).byteAvailable hsidx

/-- A performed write to `CMD` goes on, whatever its word (R260). -/
theorem issueCommand_next (w : Word) (s : State) : ∃ t, issueCommand w s = .next t := by
  unfold issueCommand
  split
  · rename_i i hd
    exact exec_command i s (sampleParams_of_decode_cw hd)
  · exact ⟨_, rfl⟩

/-- Under the invariant a performed action goes on, unless it changes a byte of the running track (R74). -/
theorem performAction_next {s : State} (h : s.Inv) (a : HostAction)
    (ha : ∀ addr b, a = .srcPut addr b → inRunningTrack addr.toNat s = false) : ∃ t, performAction a s = .next t := by
  cases a with
  | rd | hardReset => exact ⟨_, rfl⟩
  | wr index v =>
    simp only [performAction]
    split
    · exact issueCommand_next v s
    · exact ⟨_, rfl⟩
  | srcPut addr b => exact ⟨_, if_neg (Bool.eq_false_iff.1 (ha addr b rfl))⟩
  | yield => exact blockStep_next h

/-- Settles O53: the block's own step and every performed action go on, but for a change of the running track. -/
theorem safeStatesNeverStop : Obligations.SafeStatesNeverStop := by
  intro s h
  cases hp : s.pending with
  | nil =>
    rw [step_nothingPending s hp]
    exact .inl (blockStep_next h)
  | cons a rest =>
    cases hw : actionWaits a s with
    | true =>
      rw [step_actionWaits s a rest hp hw]
      exact .inl (blockStep_next h)
    | false =>
      by_cases hr : ∃ addr b, a = .srcPut addr b ∧ inRunningTrack addr.toNat s = true
      · obtain ⟨addr, b, rfl, hin⟩ := hr
        exact .inr ⟨step_put_inTrack hp hin, ((inRunningTrack_iff _ s).1 hin).1, addr, b, rest, rfl⟩
      · rw [step_performs s a rest hp hw]
        refine .inl (performAction_next (h.withPending rest) a fun addr b ha => ?_)
        exact Bool.eq_false_iff.2 fun hin => hr ⟨addr, b, ha, hin⟩

/-! ### The output stream as bytes -/

/-- Settles O60: a sample's bytes lie at twice its index, and what a step appends is laid out behind what there is. -/
theorem outputBytesAreLittleEndian : Obligations.OutputBytesAreLittleEndian := by
  refine ⟨fun s => ⟨layOut_length s.out, fun j x hx => ?_⟩, fun s t h hreset => ?_⟩
  · obtain ⟨hj, rfl⟩ := List.getElem?_eq_some_iff.1 hx
    obtain ⟨hlo, hhi⟩ := layOut_getElem? s.out j hj
    exact ⟨_, _, hlo, hhi, half_toNat _⟩
  · obtain hsame | ⟨x, hx, -⟩ := outputIsAppendOnly s t h hreset
    · exact .inl ⟨hsame, congrArg layOut hsame⟩
    · exact .inr ⟨x, _, _, hx, (congrArg layOut hx).trans (layOut_append s.out [x]), half_toNat x⟩

end Sys2Proof.Machine

/-! Encoding and decoding: which command a word is (R97, R98), that encoding and decoding are inverse to each other, and
which code a step of a run decodes (R93). -/

namespace Sys2Proof.Machine

/-! ### Which instruction an encoding is -/

/-- Settles O59: the decoder with the fields as numbers, taken at each opcode, and the codes in the order of their values. -/
theorem opcodeSelectsInstruction : Obligations.OpcodeSelectsInstruction := by
  refine ⟨fun w => ?_, by decide, by decide⟩
  rw [decode_cw, ← Claims.opc]
  refine ⟨?_, ?_, ?_, ?_, ?_, ?_, ?_, ?_, ?_, ?_, ?_⟩ <;> intro hopc <;> simp only [hopc]

/-- Settles O1: the decoder evaluated on each word. -/
theorem writtenOutWordsDecode : Obligations.WrittenOutWordsDecode := by
  unfold Obligations.WrittenOutWordsDecode
  decide

/-! ### The fields of a command word -/

/-- `OPC` of the word `(OPC << 24) | A` (R97). -/
theorem opc_commandWord (o a2 a1 a0 : Nat) : Claims.opc (commandWord o a2 a1 a0) = o % 256 := by
  rw [Claims.opc, commandWord_toNat]
  omega

theorem opc_lookupWord (o i : Nat) : Claims.opc (lookupWord o i) = o % 256 := opc_commandWord o 0 _ _

theorem commandWord_lowByte (o a2 a1 : Nat) {a0 : Nat} (h : a0 < 256) :
    (commandWord o a2 a1 a0).toNat % 2 ^ 8 = a0 := by
  rw [commandWord_toNat]
  omega

theorem commandWord_secondByte (o a2 a0 : Nat) {a1 : Nat} (h : a1 < 256) :
    (commandWord o a2 a1 a0).toNat / 2 ^ 8 % 2 ^ 8 = a1 := by
  rw [commandWord_toNat]
  omega

theorem lookupWord_lowHalf (o : Nat) {i : Nat} (h : i < 65536) : (lookupWord o i).toNat % 2 ^ 16 = i := by
  rw [lookupWord_toNat o i h]
  omega

/-! ### Decoding what was encoded -/

/-- Settles O2: a command's word carries its opcode, and its fields give the operands back; without operands the decoder
runs on a fixed encoding. -/
theorem decodeInvertsEncode : Obligations.DecodeInvertsEncode := by
  intro i hwf
  cases i with
  | s2_0 | s2_1 | s2_2 | s2_3 | s4_0 | s4_1 | s4_2 | s4_3 | s4_4 | s4_5 | s4_6 | s4_7 | s4_8 | s4_9 | s4_a | s4_b
  | s4_c | s4_d | s4_e | s4_f | nop | bcuInit | lduDecode | clrErr | softReset => rfl
  | aduStart k s0 =>
    obtain ⟨hk, hs0⟩ : k < 256 ∧ s0 < 256 := by simpa [Instr.WellFormed] using hwf
    rw [encode, decode_cw, ← Claims.opc, opc_commandWord, commandWord_lowByte _ _ _ hk, commandWord_secondByte _ _ _ hs0]
    rfl
  | bcuRead n =>
    rw [encode, decode_cw, ← Claims.opc, opc_commandWord, commandWord_lowByte _ _ _ (of_decide_eq_true hwf)]
    rfl
  | ltuT1 n | ltuT2 n | ltuT3 n | ltuLine n =>
    rw [encode, decode_cw, ← Claims.opc, opc_lookupWord, lookupWord_lowHalf _ (of_decide_eq_true hwf)]
    rfl

/-! ### Encoding what was decoded -/

/-- A command word's operands fit their fields (R97). -/
theorem wellFormed_of_decode_cw {w : Word} {i : Instr} (h : decode (.cw w) = .ok i) : i.WellFormed = true := by
  rw [decode_cw] at h
  split at h <;> cases h <;> simp [Instr.WellFormed, Nat.mod_lt]

/-- The encoder gives every command a word with its opcode, and no sample code (R98). -/
theorem carried_encode (i : Instr) : Laws.Format.carried (encode i) = Laws.Format.opcode i := by
  cases i with
  | s2_0 | s2_1 | s2_2 | s2_3 | s4_0 | s4_1 | s4_2 | s4_3 | s4_4 | s4_5 | s4_6 | s4_7 | s4_8 | s4_9 | s4_a | s4_b
  | s4_c | s4_d | s4_e | s4_f => rfl
  | nop | aduStart | bcuInit | bcuRead | ltuT1 | ltuT2 | ltuT3 | ltuLine | lduDecode | clrErr | softReset =>
    exact Laws.Format.command _ _ _ _ (by decide)

/-- Only a command word carries an opcode (R97). -/
theorem eq_cw_of_carried {e : Encoding} {o : Nat} (h : Laws.Format.carried e = some o) :
    ∃ w, e = .cw w ∧ Claims.opc w = o := by
  cases e with
  | s2 | s4 => cases h
  | cw w => exact ⟨w, rfl, Option.some.inj h⟩

theorem decodeS2_wellFormed_and_encode : ∀ c : BitVec 2, (decodeS2 c).WellFormed = true ∧ encode (decodeS2 c) = .s2 c := by decide

theorem decodeS4_wellFormed_and_encode : ∀ c : BitVec 4, (decodeS4 c).WellFormed = true ∧ encode (decodeS4 c) = .s4 c := by decide

/-- Settles O3: a code is its instruction's encoding, and a command's encoding carries the opcode of the word. -/
theorem decodedEncodesBack : Obligations.DecodedEncodesBack := by
  intro e i h
  cases e with
  | s2 c =>
    obtain rfl : decodeS2 c = i := Except.ok.inj h
    obtain ⟨hwf, henc⟩ := decodeS2_wellFormed_and_encode c
    exact ⟨hwf, decodeInvertsEncode _ hwf, henc⟩
  | s4 c =>
    obtain rfl : decodeS4 c = i := Except.ok.inj h
    obtain ⟨hwf, henc⟩ := decodeS4_wellFormed_and_encode c
    exact ⟨hwf, decodeInvertsEncode _ hwf, henc⟩
  | cw w =>
    have hwf := wellFormed_of_decode_cw h
    exact ⟨hwf, decodeInvertsEncode i hwf, eq_cw_of_carried ((carried_encode i).trans (opcode_of_decode_cw h))⟩

/-! ### Reserved opcodes and unused bits -/

/-- The reserved opcodes are `0x0B` to `0xFF` (R100). -/
theorem decode_cw_reserved_iff (w : Word) : 0x0B ≤ Claims.opc w ↔ decode (.cw w) = .error (.reservedOpcode w) := by
  rw [decode_cw, ← Claims.opc]
  split
  case h_12 =>
    refine iff_of_true ?_ rfl
    simp only [imp_false] at *
    omega
  all_goals exact iff_of_false (by omega) nofun

/-- Settles O4: a word that is not rejected decodes, since a rejection is always of a reserved opcode. -/
theorem onlyReservedOpcodesRejected : Obligations.OnlyReservedOpcodesRejected := by
  refine ⟨fun w => ⟨decode_cw_reserved_iff w, ?_⟩, fun c => ⟨_, rfl⟩, fun c => ⟨_, rfl⟩⟩
  rw [← Nat.not_le, decode_cw_reserved_iff]
  cases hd : decode (.cw w) with
  | ok i => simp
  | error e => simp [decode_cw_error w e hd]

/-- Settles O5: the decoder reads a command's operands from the bits on which the words agree. -/
theorem unusedOperandBitsIgnored : Obligations.UnusedOperandBitsIgnored := by
  intro w w' hopc hdef hstart hread hlookup
  rw [decode_cw, decode_cw, ← Claims.opc, ← Claims.opc, ← hopc]
  split
  case h_1 | h_3 | h_9 | h_10 | h_11 => rfl
  case h_2 ho =>
    have hhalf := hstart ho
    have hk : w.toNat % 2 ^ 8 = w'.toNat % 2 ^ 8 := by omega
    have hs0 : w.toNat / 2 ^ 8 % 2 ^ 8 = w'.toNat / 2 ^ 8 % 2 ^ 8 := by omega
    rw [hk, hs0]
  case h_4 ho => rw [hread ho]
  case h_5 ho | h_6 ho | h_7 ho | h_8 ho => rw [hlookup (by omega)]
  case h_12 =>
    simp only [imp_false] at *
    omega

/-! ### The code a step of a run decodes -/

/-- When the next code has two bits (R93). -/
theorem codeWidth_eq_two_iff (a : Adu) : codeWidth a = 2 ↔ a.sidx < 18 ∨ a.bitpos > 4 := by
  unfold codeWidth
  split
  next h => exact iff_of_true rfl h
  next h => exact iff_of_false (by decide) h

/-- The encoding of R93, R95 and R163 decodes to the code the machine selects. -/
theorem decode_selected (s : State) : decode (Claims.selected s) = .ok (selectedCode s) := by
  simp only [Claims.selected, selectedCode, codeWidth_eq_two_iff]
  split <;> rfl

/-- Settles O6: a step left to the block is a sample step, which runs the selected code. -/
theorem stepRunsSelectedSampleCode : Obligations.StepRunsSelectedSampleCode := by
  intro s i hm hb hd
  obtain rfl : selectedCode s = i := Except.ok.inj ((decode_selected s).symm.trans hd)
  refine ⟨fun hp => ?_, fun index v rest hp hw => ?_, fun rest hp => ?_⟩
  · rw [step_nothingPending s hp, blockStep_run s hm, runSample_available s hb]
  · rw [step_waitingWrite hm hp hw, runSample_available s hb]
  · have hrun : blockStep { s with pending := rest } = runSample { s with pending := rest } := blockStep_run _ hm
    rw [step_performs s _ rest hp rfl]
    exact hrun.trans (runSample_available { s with pending := rest } hb)

/-! ### The line table -/

/-- Byte `j` of four packed bytes is the `j`-th of them (R103). -/
theorem packBytes_byte (l : List Nat) (o j : Nat) (hl : ∀ p, l.getD p 0 < 256) (hj : j < 4) :
    (packBytes l o).toNat / 256 ^ j % 256 = l.getD (o + j) 0 := by
  rw [packBytes_toNat l o hl]
  have h0 := hl o
  have h1 := hl (o + 1)
  have h2 := hl (o + 2)
  have h3 := hl (o + 3)
  match j, hj with
  | 0, _ =>
    simp only [Nat.add_zero]
    omega
  | 1, _ | 2, _ | 3, _ => omega

/-- The bytes of the two result registers together are those of the list they pack (R103). -/
theorem resultByte_packBytes (l : List Nat) (hl : ∀ p, l.getD p 0 < 256) (s : State) (j : Nat) (hj : j < 8) :
    Claims.resultByte { s with result := packBytes l 0, resultHi := packBytes l 4 } j = l.getD j 0 := by
  unfold Claims.resultByte
  split
  next hlo => rw [packBytes_byte l 0 j hl hlo, Nat.zero_add]
  next hhi => rw [packBytes_byte l 4 (j - 4) hl (by omega), Nat.add_sub_of_le (Nat.not_lt.1 hhi)]

/-- `LTU_LINE` of a legal index with no fault held writes the entry into the two result registers (R135). -/
theorem exec_ltuLine_legal {i : Nat} {s : State} (h0 : s.err.code = 0) (hi : i < 6561) :
    exec (.ltuLine i) s = .next { s with
      result := packBytes (lineEntry Config.tables i) 0
      resultHi := packBytes (lineEntry Config.tables i) 4 } :=
  congrArg Host.Outcome.next ((unlessFaulted_free s _ h0).trans (lookup_legal _ _ _ _ _ s hi))

/-- Settles O30: byte `j` of the result is byte `j` of the entry, the digit at the place `LINE_PERM[j]`. -/
theorem lineTableLookup : Obligations.LineTableLookup := by
  intro i s h0 hi
  refine ⟨_, _, exec_ltuLine_legal h0 hi, fun j hj => ?_⟩
  rw [resultByte_packBytes _ (lineEntry_lt Config.tables i) s j hj, lineEntry_getD Config.tables i j hj,
    digits_getD i _ (linePerm_lt Config.tables j hj), Claims.dig]

end Sys2Proof.Machine

/-! The lookup tables: what the commands return for a legal index (R132 to R134), the sum form of `T3` (R126), and that the
entries of `T3` and `LINE` are pairwise distinct (R127, R136). -/

namespace Sys2Proof.Machine

/-! ### Lookups of a legal index -/

/-- With no fault held, the lookup of a legal index writes both result registers and nothing else (R132 to R135). -/
theorem next_lookup_legal {opc : Byte} {len i : Nat} {lo hi : Word} {s : State} (h0 : s.err.code = 0) (hlen : i < len) :
    (.next (unlessFaulted s (lookup opc len i lo hi s)) : Result) = .next { s with result := lo, resultHi := hi } := by
  rw [unlessFaulted_free _ _ h0, lookup_legal _ _ _ _ _ _ hlen]

/-- Settles O28: both are lookups of a legal index, and every code of a short table is a legal index of the long ones. -/
theorem shortTableLookups : Obligations.ShortTableLookups := fun i _ h0 hi =>
  ⟨next_lookup_legal h0 hi, next_lookup_legal h0 hi,
    shortTable_getD_lt _ i Config.tables.t1_codes, shortTable_getD_lt _ i Config.tables.t2_codes⟩

/-! ### The composite table -/

/-- The model's recursive product is the sum over the places (R126). -/
theorem dot_eq_sum (w d : List Nat) :
    Config.dot w d = ((List.range d.length).map fun k => w.getD k 0 * d.getD k 0).sum := by
  induction d generalizing w with
  | nil => cases w <;> rfl
  | cons x ds ih =>
    cases w with
    | nil => simp [Config.dot]
    | cons y ws => simp [Config.dot, ih, List.range_succ_eq_map, Function.comp_def]

theorem t3Entry_eq_sum (T : Config.Tables) (i : Nat) :
    t3Entry T i = ((List.range 8).map fun k => T.w3.getD k 0 * Claims.dig k i).sum := by
  rw [t3Entry, dot_eq_sum, digits_length]
  refine congrArg List.sum (List.map_congr_left fun k hk => ?_)
  rw [digits_getD i k (List.mem_range.1 hk), Claims.dig]

theorem t3Word_toNat (T : Config.Tables) {i : Nat} (h : t3Entry T i < 2 ^ 32) : (t3Word T i).toNat = t3Entry T i := by
  rw [t3Word, if_pos h, BitVec.toNat_ofNat, Nat.mod_eq_of_lt h]

theorem t3Word_zero (T : Config.Tables) : t3Word T 0 = 0 := by
  have hzero : t3Entry T 0 = 0 := dot_digits_zero T.w3
  rw [t3Word, hzero]
  rfl

/-- Settles O29: the entry is the weighted sum, kept whole where it fits the register; all digits of 0 are 0. -/
theorem compositeTableLookup : Obligations.CompositeTableLookup := by
  intro i s h0 hi
  refine ⟨t3Word Config.tables i, next_lookup_legal h0 hi, fun hfit => ?_, ?_⟩
  · rw [← t3Entry_eq_sum] at hfit ⊢
    exact t3Word_toNat _ hfit
  · rintro rfl
    exact t3Word_zero _

/-! ### The entries are distinct -/

/-- Different legal indices have different entries of `T3` (R126, R136). -/
theorem t3Entry_injective (T : Config.Tables) {i j : Nat} (hi : i < 6561) (hj : j < 6561)
    (h : t3Entry T i = t3Entry T j) : i = j :=
  digits_injective i j hi hj
    (T.w3_injective _ _ (digits_length i) (digits_length j) (digits_lt i) (digits_lt j) h)

/-- Every place is the image of a place: eight distinct values below 8 (R127). -/
theorem linePerm_perm (T : Config.Tables) : T.linePerm.Perm (List.range 8) := by
  have hsub : T.linePerm ⊆ List.range 8 := fun p hp => by
    obtain ⟨j, hj, rfl⟩ := List.getElem_of_mem hp
    rw [List.mem_range, ← List.getD_eq_getElem T.linePerm 8 hj]
    exact linePerm_lt T j (T.linePerm_length ▸ hj)
  refine (T.linePerm_distinct.subperm hsub).perm_of_length_le ?_
  rw [T.linePerm_length, List.length_range]

theorem lineEntry_length (T : Config.Tables) (i : Nat) : (lineEntry T i).length = 8 := by
  rw [lineEntry, List.length_map, T.linePerm_length]

/-- Lists of eight that agree at the eight places are equal. -/
theorem eq_of_getD_eq {l m : List Nat} (hl : l.length = 8) (hm : m.length = 8)
    (h : ∀ p, p < 8 → l.getD p 0 = m.getD p 0) : l = m := by
  refine List.ext_getElem (hl.trans hm.symm) fun p hpl hpm => ?_
  rw [← List.getD_eq_getElem l 0 hpl, ← List.getD_eq_getElem m 0 hpm, h p (hl ▸ hpl)]

/-- Different legal indices have different patterns: a pattern holds every digit of its index (R127). -/
theorem lineEntry_injective (T : Config.Tables) {i j : Nat} (hi : i < 6561) (hj : j < 6561)
    (h : lineEntry T i = lineEntry T j) : i = j := by
  have hdigit : ∀ p ∈ T.linePerm, (digits i).getD p 0 = (digits j).getD p 0 := List.map_inj_left.1 h
  refine digits_injective i j hi hj (eq_of_getD_eq (digits_length i) (digits_length j) fun p hp => ?_)
  exact hdigit p ((linePerm_perm T).mem_iff.2 (List.mem_range.2 hp))

/-- The two result registers determine the eight bytes packed in them (R103). -/
theorem packBytes_injective {l m : List Nat} (hl : l.length = 8) (hm : m.length = 8) (hlb : ∀ p, l.getD p 0 < 256)
    (hmb : ∀ p, m.getD p 0 < 256) (hlo : packBytes l 0 = packBytes m 0) (hhi : packBytes l 4 = packBytes m 4) : l = m :=
  eq_of_getD_eq hl hm fun p hp => by
    rw [← resultByte_packBytes l hlb State.reset p hp, hlo, hhi, resultByte_packBytes m hmb State.reset p hp]

/-- Settles O32: the entries of both tables determine the index, and the result registers determine the pattern. -/
theorem tableEntriesDistinct : Obligations.TableEntriesDistinct := by
  intro i j hi hj hne
  refine ⟨fun h => hne (t3Entry_injective _ hi hj h), fun s t u h0 ht hu hres => hne ?_⟩
  obtain rfl := Host.Outcome.next.inj ((exec_ltuLine_legal h0 hi).symm.trans ht)
  obtain rfl := Host.Outcome.next.inj ((exec_ltuLine_legal h0 hj).symm.trans hu)
  obtain ⟨hlo, hhi⟩ := Prod.mk.inj hres
  exact lineEntry_injective _ hi hj (packBytes_injective (lineEntry_length _ i) (lineEntry_length _ j)
    (lineEntry_lt _ i) (lineEntry_lt _ j) hlo hhi)

/-! ### The reference contents -/

/-- Settles O33: the 32 patterns of eight pixels, evaluated. -/
theorem referenceTablesShift : Obligations.ReferenceTablesShift := by
  unfold Obligations.ReferenceTablesShift
  decide

end Sys2Proof.Machine

/-! The bit cursor: the empty window (R141), reads with and without a refill (R142 to R145), and that any sequence of reads
delivers the bit stream (R147). -/

namespace Sys2Proof.Machine

/-- Settles O23: with no fault held the lock lets `BCU_INIT` through. -/
theorem cursorInit : Obligations.CursorInit := fun s h0 => congrArg Host.Outcome.next (unlessFaulted_free s _ h0)

/-! ### One read, with no fault held -/

/-- A delivery written out as numbers: the remainder and the quotient of the window by `2^n` (R144). -/
theorem deliver_eq (n : Nat) (b : Bcu) (s : State) (hn : n ≤ 16) :
    deliver n b s =
      { s with
        bcu := { bval := BitVec.ofNat 32 (b.bval.toNat / 2 ^ n), bidx := b.bidx + n, bwp := b.bwp }
        result := BitVec.ofNat 32 (b.bval.toNat % 2 ^ n)
        resultHi := 0 } := by
  rw [← extractBits_toNat n b hn, ← afterExtract_bval_toNat, BitVec.ofNat_toNat, BitVec.ofNat_toNat,
    BitVec.setWidth_eq, BitVec.setWidth_eq]
  rfl

/-- The lock lets the read through (R238). -/
theorem exec_bcuRead_free {n : Nat} {s : State} (h0 : s.err.code = 0) : exec (.bcuRead n) s = .next (bcuRead n s) :=
  congrArg Host.Outcome.next (unlessFaulted_free s _ h0)

/-- The word a refill fetches is the one of the statements. -/
theorem windowWord_eq_refillWord (s : State) : windowWord s = Claims.refillWord s := rfl

/-- Settles O24: the window itself delivers the bits. -/
theorem readWithoutRefill : Obligations.ReadWithoutRefill := by
  intro n s h0 h1 h16 hheld
  rw [exec_bcuRead_free h0, bcuRead_noRefill n s h1 h16 hheld, deliver_eq n s.bcu s h16]

/-- Settles O25: the refilled window delivers the bits; `BIDX` was at least 1, so it holds at most 31. -/
theorem readWithRefill : Obligations.ReadWithRefill := by
  intro n s h0 hinv h1 h16 hlow hsize
  obtain ⟨b, hb, hidx, hwp, hval, hlt⟩ := refill_inside s hinv (by omega) hsize
  have hwindow : b.bval.toNat < 2 ^ 31 := hlt.trans_le (Nat.pow_le_pow_right (by decide) (by omega))
  have hbwp : b.bwp = BitVec.ofNat 32 (s.bcu.bwp.toNat + 2) := by simp [hwp, BitVec.ofNat_add]
  have hbidx : b.bidx + n = s.bcu.bidx + n - 16 := by omega
  rw [windowWord_eq_refillWord] at hval
  refine ⟨hval ▸ hwindow, ?_⟩
  rw [exec_bcuRead_free h0, bcuRead_refill n s b h1 h16 hlow hb, deliver_eq n b s h16, hval, hbwp, hbidx]

/-! ### The fields of the bit stream (R147) -/

/-- A field of `i + j` stream bits is the field of the first `i` below that of the next `j`. -/
theorem streamField_add (m : Memory) (a q i j : Nat) :
    streamField m a q (i + j) = streamField m a q i + 2 ^ i * streamField m a (q + i) j := by
  induction j with
  | zero => rfl
  | succ j ih =>
    rw [← Nat.add_assoc, streamField, ih, streamField, Nat.add_assoc q i j, Nat.mul_add, Nat.add_assoc, mul_ite,
      Nat.mul_zero, Nat.pow_add]

theorem streamField_lt (m : Memory) (a q n : Nat) : streamField m a q n < 2 ^ n := by
  induction n with
  | zero => exact Nat.one_pos
  | succ n ih =>
    rw [streamField, Nat.pow_succ]
    split <;> omega

/-- The low bits of a field are the shorter field from the same bit on. -/
theorem streamField_mod (m : Memory) (a q : Nat) {n k : Nat} (h : n ≤ k) :
    streamField m a q k % 2 ^ n = streamField m a q n := by
  rw [← Nat.add_sub_of_le h, streamField_add, Nat.add_mul_mod_self_left, Nat.mod_eq_of_lt (streamField_lt m a q n)]

/-- What is above the low bits of a field is the field of the bits after them. -/
theorem streamField_div (m : Memory) (a q : Nat) {n k : Nat} (h : n ≤ k) :
    streamField m a q k / 2 ^ n = streamField m a (q + n) (k - n) := by
  rw [← Nat.add_sub_of_le h, streamField_add, Nat.add_mul_div_left _ _ (Nat.two_pow_pos n),
    Nat.div_eq_of_lt (streamField_lt m a q n), Nat.zero_add, Nat.add_sub_cancel_left]

/-- A field that begins with a byte and does not leave it is the low bits of that byte. -/
theorem streamField_in_byte (m : Memory) (a j : Nat) {n : Nat} (hn : n ≤ 8) :
    streamField m a (8 * j) n = (m.read (a + j)).toNat % 2 ^ n := by
  induction n with
  | zero => exact (Nat.mod_one _).symm
  | succ n ih =>
    have hbit : streamBit m a (8 * j + n) = (m.read (a + j)).toNat.testBit n := by
      rw [streamBit, Nat.mul_add_div (by decide), Nat.div_eq_of_lt hn, Nat.mul_add_mod, Nat.mod_eq_of_lt hn]
      rfl
    rw [streamField, ih (by omega), hbit, Nat.mod_pow_succ, ← Nat.toNat_testBit]
    cases (m.read (a + j)).toNat.testBit n <;> simp

/-- The 16 stream bits from an even byte on are the little-endian word there (R62). -/
theorem streamField_word (m : Memory) (a k : Nat) :
    streamField m a (16 * k) 16 = (m.read (a + 2 * k)).toNat + 256 * (m.read (a + 2 * k + 1)).toNat := by
  have hlow := streamField_in_byte m a (2 * k) (Nat.le_refl 8)
  have hhigh := streamField_in_byte m a (2 * k + 1) (Nat.le_refl 8)
  rw [Nat.mod_eq_of_lt (BitVec.isLt _)] at hlow hhigh
  rw [show 16 * k = 8 * (2 * k) by omega, streamField_add m a _ 8 8, hlow,
    show 8 * (2 * k) + 8 = 8 * (2 * k + 1) by omega, hhigh]
  rfl

/-! ### The cursor in the stream -/

/-- The words that hold the first `q` bits of the stream. -/
def streamWords (q : Nat) : Nat := (q + 15) / 16

/-- These words hold the bits, and one word fewer would not. -/
theorem streamWords_bounds (q : Nat) : q ≤ 16 * streamWords q ∧ 16 * streamWords q < q + 16 := by
  unfold streamWords
  omega

/-- `s` is between two reads, after a `BCU_INIT` in `s₀` and reads of `q` bits in all: the words that hold these bits are
fetched, and the window holds what is left of the last of them (R145, R147). -/
structure AtStreamBit (s₀ : State) (q : Nat) (s : State) : Prop where
  no_fault : s.err.code = 0
  src : s.src = s₀.src
  srcSize : s.srcSize = s₀.srcSize
  bwp : s.bcu.bwp.toNat = s₀.arg.toNat + 2 * streamWords q
  bidx : s.bcu.bidx = q + 16 - 16 * streamWords q
  bval : s.bcu.bval.toNat = streamField s₀.src s₀.arg.toNat q (16 * streamWords q - q)

/-- The next `n` bits need no new word, or the last word they touch lies wholly inside the source. -/
def BitsLeft (s₀ : State) (q n : Nat) : Prop :=
  streamWords (q + n) = streamWords q ∨ s₀.arg.toNat + 2 * streamWords (q + n) ≤ s₀.srcSize.toNat

/-- Bits can be read together exactly when they can be read in two parts. -/
theorem bitsLeft_add (s₀ : State) (q n k : Nat) :
    BitsLeft s₀ q (n + k) ↔ BitsLeft s₀ q n ∧ BitsLeft s₀ (q + n) k := by
  have := streamWords_bounds q
  have := streamWords_bounds (q + n)
  have := streamWords_bounds (q + n + k)
  unfold BitsLeft
  rw [← Nat.add_assoc]
  omega

/-- From the empty window any bits need a word. -/
theorem bitsLeft_zero_iff (s₀ : State) {n : Nat} (hn : 1 ≤ n) :
    BitsLeft s₀ 0 n ↔ s₀.arg.toNat + 2 * ((n + 15) / 16) ≤ s₀.srcSize.toNat := by
  unfold BitsLeft streamWords
  omega

/-- `BCU_INIT` puts the cursor at the first bit of the stream (R141). -/
theorem atStreamBit_init {s₀ s : State} (h0 : s₀.err.code = 0) (h : exec .bcuInit s₀ = .next s) : AtStreamBit s₀ 0 s := by
  obtain rfl := Host.Outcome.next.inj ((cursorInit s₀ h0).symm.trans h)
  exact ⟨h0, rfl, rfl, rfl, rfl, rfl⟩

section
variable {s₀ s : State} {q n : Nat} (h : AtStreamBit s₀ q s)
include h

/-- The window meets the cursor's invariant (R145). -/
theorem AtStreamBit.inv : s.bcu.Inv := by
  have hidx := h.bidx
  have hq := streamWords_bounds q
  refine ⟨by omega, by omega, ?_⟩
  rw [h.bval, show (16 - s.bcu.bidx).toNat = 16 * streamWords q - q by omega]
  exact streamField_lt _ _ _ _

/-- The word a refill fetches is the next 16 bits of the stream. -/
theorem AtStreamBit.windowWord_eq :
    windowWord s = streamField s₀.src s₀.arg.toNat (16 * streamWords q) 16 := by
  rw [streamField_word, windowWord, h.src, h.bwp]

/-- A delivery from a window with the stream's bits up to the last word `n` bits touch moves the cursor by `n` bits. -/
theorem AtStreamBit.after_deliver (hn : n ≤ 16) {b : Bcu} (hwp : b.bwp.toNat = s₀.arg.toNat + 2 * streamWords (q + n))
    (hidx : b.bidx = q + 16 - 16 * streamWords (q + n))
    (hval : b.bval.toNat = streamField s₀.src s₀.arg.toNat q (16 * streamWords (q + n) - q)) :
    AtStreamBit s₀ (q + n) (deliver n b s) ∧
      (deliver n b s).result.toNat = streamField s₀.src s₀.arg.toNat q n := by
  have hle : n ≤ 16 * streamWords (q + n) - q := by
    have := streamWords_bounds (q + n)
    omega
  refine ⟨⟨h.no_fault, h.src, h.srcSize, hwp, ?_, ?_⟩, ?_⟩
  · simp only [deliver_bcu, afterExtract_bidx, hidx]
    omega
  · rw [deliver_bcu, afterExtract_bval_toNat, hval, streamField_div _ _ _ hle, Nat.sub_sub]
  · rw [deliver_result, extractBits_toNat n b hn, hval, streamField_mod _ _ _ hle]

/-- A read of bits that are left delivers the next field of the stream. -/
theorem AtStreamBit.read (h1 : 1 ≤ n) (h16 : n ≤ 16) (hleft : BitsLeft s₀ q n) :
    ∃ t, exec (.bcuRead n) s = .next t ∧ AtStreamBit s₀ (q + n) t ∧
      t.result.toNat = streamField s₀.src s₀.arg.toNat q n := by
  have hidx := h.bidx
  have hq := streamWords_bounds q
  have hqn := streamWords_bounds (q + n)
  by_cases hheld : s.bcu.bidx + n ≤ 16
  case pos =>
    have hsame : streamWords (q + n) = streamWords q := by omega
    refine ⟨deliver n s.bcu s, ?_, h.after_deliver h16 ?_ ?_ ?_⟩
    · rw [exec_bcuRead_free h.no_fault, bcuRead_noRefill n s h1 h16 hheld]
    · rw [hsame, h.bwp]
    · rw [hsame, hidx]
    · rw [hsame, h.bval]
  case neg =>
    have hnext : streamWords (q + n) = streamWords q + 1 := by omega
    have hsize : s.bcu.bwp.toNat + 2 ≤ s.srcSize.toNat := by
      rw [h.bwp, h.srcSize]
      unfold BitsLeft at hleft
      omega
    obtain ⟨b, hb, hbidx, hbwp, hbval, -⟩ := refill_inside s h.inv (by omega) hsize
    have hbits : (16 - s.bcu.bidx).toNat = 16 * streamWords q - q := by omega
    refine ⟨deliver n b s, ?_, h.after_deliver h16 ?_ ?_ ?_⟩
    · rw [exec_bcuRead_free h.no_fault, bcuRead_refill n s b h1 h16 (by omega) hb]
    · rw [hbwp, bwp_add_two s hsize, h.bwp, hnext, Nat.mul_succ, Nat.add_assoc]
    · omega
    · rw [hbval, hbits, h.bval, h.windowWord_eq, hnext, Nat.mul_succ, Nat.sub_add_comm hq.1, streamField_add,
        Nat.add_sub_of_le hq.1]

/-- A read of bits that are not left faults (R265). -/
theorem AtStreamBit.read_faults (h1 : 1 ≤ n) (h16 : n ≤ 16) (hleft : ¬ BitsLeft s₀ q n) :
    ∃ t, exec (.bcuRead n) s = .next t ∧ t.err.code ≠ 0 := by
  have hidx := h.bidx
  have hq := streamWords_bounds q
  have hqn := streamWords_bounds (q + n)
  unfold BitsLeft at hleft
  have hlow : 16 < s.bcu.bidx + n := by omega
  have hsize : s.srcSize.toNat < s.bcu.bwp.toNat + 2 := by
    rw [h.bwp, h.srcSize]
    omega
  refine ⟨raiseErr .unexpectedEndOfStream 0x03 s.bcu.bwp.toNat s, ?_, ErrKind.code_ne_zero .unexpectedEndOfStream⟩
  rw [exec_bcuRead_free h.no_fault, bcuRead_ended n s h1 h16 hlow (refill_outside s hsize)]

end

/-! ### A sequence of reads -/

theorem readFields_cons_next {n : Nat} {ns : List Nat} {s t : State} (h : exec (.bcuRead n) s = .next t)
    (h0 : t.err.code = 0) :
    Claims.readFields (n :: ns) s = (Claims.readFields ns t).map fun r => (t.result :: r.1, r.2) := by
  simp only [Claims.readFields, h, h0, if_true]

theorem readFields_cons_fault {n : Nat} {ns : List Nat} {s t : State} (h : exec (.bcuRead n) s = .next t)
    (h0 : t.err.code ≠ 0) : Claims.readFields (n :: ns) s = none := by
  simp only [Claims.readFields, h, h0, if_false]

/-- Reads of bits that are left all succeed and deliver the fields of the stream. -/
theorem readFields_of_bitsLeft {s₀ s : State} {q : Nat} (ns : List Nat) (h : AtStreamBit s₀ q s)
    (hns : ∀ n ∈ ns, 1 ≤ n ∧ n ≤ 16) (hleft : BitsLeft s₀ q ns.sum) :
    ∃ results t, Claims.readFields ns s = some (results, t) ∧
      results.map BitVec.toNat = Claims.streamFields s₀.src s₀.arg.toNat q ns := by
  induction ns generalizing q s with
  | nil => exact ⟨[], s, rfl, rfl⟩
  | cons n ns ih =>
    obtain ⟨hn, hns⟩ := List.forall_mem_cons.1 hns
    rw [List.sum_cons, bitsLeft_add] at hleft
    obtain ⟨t, hread, ht, hresult⟩ := h.read hn.1 hn.2 hleft.1
    obtain ⟨results, u, hrest, hfields⟩ := ih ht hns hleft.2
    refine ⟨t.result :: results, u, ?_, ?_⟩
    · rw [readFields_cons_next hread ht.no_fault, hrest]
      rfl
    · rw [List.map_cons, hresult, hfields]
      rfl

/-- Reads of more bits than are left do not all succeed. -/
theorem readFields_of_not_bitsLeft {s₀ s : State} {q : Nat} (ns : List Nat) (h : AtStreamBit s₀ q s)
    (hns : ∀ n ∈ ns, 1 ≤ n ∧ n ≤ 16) (hleft : ¬ BitsLeft s₀ q ns.sum) : Claims.readFields ns s = none := by
  induction ns generalizing q s with
  | nil => exact absurd (.inl rfl) hleft
  | cons n ns ih =>
    obtain ⟨hn, hns⟩ := List.forall_mem_cons.1 hns
    rw [List.sum_cons, bitsLeft_add, not_and] at hleft
    by_cases hfirst : BitsLeft s₀ q n
    case pos =>
      obtain ⟨t, hread, ht, -⟩ := h.read hn.1 hn.2 hfirst
      rw [readFields_cons_next hread ht.no_fault, ih ht hns (hleft hfirst), Option.map_none]
    case neg =>
      obtain ⟨t, hread, ht⟩ := h.read_faults hn.1 hn.2 hfirst
      exact readFields_cons_fault hread ht

/-- Settles O27: the cursor starts at stream bit 0, each read moves it along the stream, and a first read needs a word. -/
theorem cursorDeliversTheStream : Obligations.CursorDeliversTheStream := by
  intro s₀ s widths h0 hinit hne hwidths
  have hstart := atStreamBit_init h0 hinit
  obtain ⟨n, hn⟩ := List.exists_mem_of_ne_nil widths hne
  have hsum : 1 ≤ widths.sum := (hwidths n hn).1.trans (List.le_sum_of_mem hn)
  rw [← bitsLeft_zero_iff s₀ hsum]
  by_cases hleft : BitsLeft s₀ 0 widths.sum
  case pos =>
    obtain ⟨results, t, hread, hfields⟩ := readFields_of_bitsLeft widths hstart hwidths hleft
    refine ⟨iff_of_true (by rw [hread]; rfl) hleft, fun results' t' h' => ?_⟩
    obtain ⟨rfl, -⟩ := Prod.mk.inj (Option.some.inj (hread.symm.trans h'))
    exact hfields
  case neg =>
    have hnone := readFields_of_not_bitsLeft widths hstart hwidths hleft
    exact ⟨iff_of_false (by rw [hnone]; decide) hleft, fun _ _ h' => nomatch hnone.symm.trans h'⟩

end Sys2Proof.Machine

/-! The result of a sample code: the delta and the index adjustment of its code with the common tail (R164 to R166), and the
position it leaves (R163, R167, R168). -/

namespace Sys2Proof.Machine

/-! ### The rules of the codes are the machine's parameters -/

/-- The rule of a 2-bit code (R170 to R173) is what the machine computes from its bits (R164). -/
theorem sampleParams_of_twoBitRule (T : Config.Tables) {i : Instr} {d : Nat → Int} {adj : Int}
    (h : Claims.twoBitRule i = some (d, adj)) : sampleParams T i = some (2, d, adj) := by
  cases i <;> cases h <;> rfl

/-- The rule of a 4-bit code (R174 to R189) is what the machine computes from its bits (R165). -/
theorem sampleParams_of_fourBitRule (T : Config.Tables) {i : Instr} {d : Nat → Int} {c : Nat}
    (h : Claims.fourBitRule i = some (d, c)) : sampleParams T i = some (4, d, T.idx4.getD c 0) := by
  cases i <;> cases h <;> rfl

/-! ### The common tail -/

/-- A sample step leaves the common tail of R166, whatever its width. -/
theorem emitSample_tailOf (w : Nat) (d adj : Int) (b : Byte) (s : State) :
    Claims.TailOf d (s.adu.sidx + adj) s (emitSample (sampleRegs w d adj b s.adu) s) := by
  obtain ⟨hpred, hsidx, hdiff, -, hnout, -⟩ := sampleRegs_tail w d adj b s.adu
  have hnonneg := le_clamp (s.adu.sidx + adj) 0 79 (by decide)
  refine ⟨?_, ?_, ?_, ?_, _, emitSample_out _ s, ?_⟩ <;> simp only [emitSample_adu]
  · rw [hsidx, Int.toNat_of_nonneg hnonneg, clamp_eq_max_min _ _ _ (by decide)]
  · rw [hdiff, clamp_eq_max_min _ _ _ (by decide)]
  · rw [hpred, hdiff]
  · exact hnout
  · exact sampleOf_toNat _

/-- A code with its byte and its step size completes, with the common tail of its parameters (R166). -/
theorem exec_sample_tailOf {i : Instr} {w : Nat} {d : Nat → Int} {adj : Int}
    (h : sampleParams Config.tables i = some (w, d, adj)) {s : State} (hb : s.ByteAvailable) (hs : s.adu.sidx < 89) :
    ∃ t, exec i s = .next t ∧ Claims.TailOf (d (Config.tables.stepTable.getD s.adu.sidx 0)) (s.adu.sidx + adj) s t := by
  rw [exec_sample i w d adj h, sampleStep_next _ _ _ _ _ hb hs]
  exact ⟨_, rfl, emitSample_tailOf w _ adj _ s⟩

/-- Settles O10: the rule gives the code's parameters. -/
theorem twoBitCodesResult : Obligations.TwoBitCodesResult := fun _ _ _ h _ =>
  exec_sample_tailOf (sampleParams_of_twoBitRule Config.tables h)

/-- Settles O11: the rule gives the code's parameters, the adjustment from the open table. -/
theorem fourBitCodesResult : Obligations.FourBitCodesResult := fun _ _ _ h _ =>
  exec_sample_tailOf (sampleParams_of_fourBitRule Config.tables h)

/-! ### The position and the end of the run -/

/-- The end test of a sample step, which compares with the length of the state's own track (R168). -/
theorem runEnded_iff {a : Adu} {s : State} (h : a.atrk = s.adu.atrk) :
    runEnded a s = true ↔ a.bitpos = 0 ∧ a.bptr = s.trkLen[s.adu.atrk] := by
  simp [runEnded, h]

/-- The last code of a byte leaves no bit of it (R163). -/
theorem shiftRight_eq_zero_of_lt {b : Byte} {w : Nat} (h : b.toNat < 2 ^ w) : b >>> w = 0 :=
  BitVec.eq_of_toNat_eq (by rw [BitVec.toNat_ushiftRight, Nat.shiftRight_eq_div_pow, Nat.div_eq_of_lt h]; rfl)

/-- Settles O12: what the registers of the position become is R167, the rest the end test. -/
theorem sampleCodesAdvance : Obligations.SampleCodesAdvance := by
  intro i w hc s hb hs
  obtain ⟨d, adj, hexec⟩ := exec_of_codeBits hc
  rw [hexec, sampleStep_next _ _ _ _ _ hb hs]
  obtain ⟨-, -, -, hcur, -, htrk⟩ := sampleRegs_tail w (d (stepSize Config.tables s.adu.sidx)) adj s.unconsumed s.adu
  refine ⟨_, rfl, ?_⟩
  rw [emitSample_adu, ← runEnded_iff htrk, Bool.not_eq_true]
  refine ⟨hcur, sampleRegs_endsByte w _ _ _ _, sampleRegs_insideByte w _ _ _ _, fun hend => ?_, fun hgo => ?_,
    fun h8 hlt => ?_⟩
  · obtain ⟨hmode, hdone, -⟩ := emitSample_ended _ s hend
    exact ⟨hmode, hdone⟩
  · obtain ⟨hmode, hdone, -⟩ := emitSample_goesOn _ s hgo
    exact ⟨hmode, hdone⟩
  · rw [hcur]
    exact shiftRight_eq_zero_of_lt (by rwa [show 8 - s.adu.bitpos = w by omega] at hlt)

end Sys2Proof.Machine

/-! Runs that the host leaves alone: what each sample step leaves (R161 to R168), and that a run ends (R307). -/

namespace Sys2Proof.Machine

/-! ### The registers after a sample step -/

/-- The codec registers after the sample step that the registers select from the unconsumed bits (R93, R163 to R167). -/
def nextAdu (T : Config.Tables) (bits : Byte) (a : Adu) : Adu :=
  if codeWidth a = 2 then
    sampleRegs 2 (delta2 (bits.extractLsb' 0 2) (stepSize T a.sidx)) (adjust2 (bits.extractLsb' 0 2)) bits a
  else
    sampleRegs 4 (delta4 (bits.extractLsb' 0 4) (stepSize T a.sidx)) (adjust4 T (bits.extractLsb' 0 4)) bits a

/-- The state after the sample step of a run. -/
def State.sampled (s : State) : State := emitSample (nextAdu Config.tables s.unconsumed s.adu) s

theorem codeWidth_eq_four {a : Adu} (h : codeWidth a ≠ 2) : codeWidth a = 4 := by
  unfold codeWidth at h ⊢
  split
  next hnarrow => exact absurd (if_pos hnarrow) h
  next => rfl

/-- Whichever code is selected, the registers are those of a sample step of its width. -/
theorem nextAdu_eq_sampleRegs (T : Config.Tables) (bits : Byte) (a : Adu) :
    ∃ d adj, nextAdu T bits a = sampleRegs (codeWidth a) d adj bits a := by
  unfold nextAdu
  split
  next h => rw [h]; exact ⟨_, _, rfl⟩
  next h => rw [codeWidth_eq_four h]; exact ⟨_, _, rfl⟩

/-- A sample step of a run leaves the registers of the selected code (R161). -/
theorem runSample_eq_sampled {s : State} (hb : s.ByteAvailable) (hs : s.adu.sidx < 89) : runSample s = .next s.sampled := by
  rw [runSample_available s hb, selectedCode, State.sampled, nextAdu]
  split
  · rw [exec_sample _ _ _ _ (sampleParams_decodeS2 _ _), sampleStep_next _ _ _ _ _ hb hs]
  · rw [exec_sample _ _ _ _ (sampleParams_decodeS4 _ _), sampleStep_next _ _ _ _ _ hb hs]

/-! ### A run that the host leaves alone -/

/-- A step boundary of a run with nothing for the host to do: the part of the invariant that speaks of the codec. -/
structure State.RunsAlone (s : State) : Prop where
  mode : s.mode = .aduRun
  pending : s.pending = []
  adu : s.adu.Inv
  run : s.RunInv

/-- The end of a run: the whole track is consumed (R168). -/
structure State.RunOver (s : State) : Prop where
  mode : s.mode = .idle
  done : s.done = true
  bptr : s.adu.bptr = s.trkLen[s.adu.atrk]
  bitpos : s.adu.bitpos = 0
  cur : s.adu.cur = 0

/-- As many steps as there are samples lead from `s` to `t`, emit these samples and keep the track. -/
structure Emitted (s : State) (xs : List Half) (t : State) : Prop where
  run : Sys2Proof.core.run xs.length s = .next t
  out : t.out = s.out ++ xs
  nout : t.adu.nout = s.adu.nout + xs.length
  atrk : t.adu.atrk = s.adu.atrk
  trkBase : t.trkBase = s.trkBase
  trkLen : t.trkLen = s.trkLen
  src : t.src = s.src
  pending : t.pending = s.pending

theorem Emitted.trans {s t u : State} {xs ys : List Half} (h : Emitted s xs t) (h' : Emitted t ys u) :
    Emitted s (xs ++ ys) u where
  run := by rw [List.length_append, run_add _ _ s t h.run, h'.run]
  out := by rw [h'.out, h.out, List.append_assoc]
  nout := by rw [h'.nout, h.nout, List.length_append, Nat.add_assoc]
  atrk := h'.atrk.trans h.atrk
  trkBase := h'.trkBase.trans h.trkBase
  trkLen := h'.trkLen.trans h.trkLen
  src := h'.src.trans h.src
  pending := h'.pending.trans h.pending

namespace State.RunsAlone

variable {s : State}

/-- A step of such a run is its sample step, which completes (R190). -/
theorem step_eq (h : s.RunsAlone) : step s = .next s.sampled := by
  have hsidx : s.adu.sidx < 89 := by have := h.adu.sidx_le; omega
  rw [step_nothingPending s h.pending, blockStep_run s h.mode, runSample_eq_sampled h.run.byteAvailable hsidx]

/-- The step emits one sample. -/
theorem emitted (h : s.RunsAlone) : Emitted s [sampleOf s.sampled.adu.pred] s.sampled := by
  obtain ⟨d, adj, hregs⟩ := nextAdu_eq_sampleRegs Config.tables s.unconsumed s.adu
  obtain ⟨-, -, -, -, hnout, htrk⟩ := sampleRegs_tail (codeWidth s.adu) d adj s.unconsumed s.adu
  exact
    { run := run_succ_next 0 s _ h.step_eq
      out := by simp [State.sampled]
      nout := by simpa [State.sampled, hregs] using hnout
      atrk := by simpa [State.sampled, hregs] using htrk
      trkBase := emitSample_trkBase _ s
      trkLen := emitSample_trkLen _ s
      src := emitSample_src _ s
      pending := emitSample_pending _ s }

/-- There is a byte left, so `BPTR` does not wrap. -/
theorem bptr_succ (h : s.RunsAlone) : (s.adu.bptr + 1).toNat = s.adu.bptr.toNat + 1 := by
  have hlt := h.run.bptr_lt
  exact bptr_succ_toNat _ (by have := s.trkLen[s.adu.atrk].isLt; omega)

/-- The last code of the track ends the run (R168). -/
theorem sampled_over (h : s.RunsAlone) (h8 : s.adu.bitpos + codeWidth s.adu = 8)
    (hlast : s.adu.bptr + 1 = s.trkLen[s.adu.atrk]) : s.sampled.RunOver := by
  obtain ⟨d, adj, hregs⟩ := nextAdu_eq_sampleRegs Config.tables s.unconsumed s.adu
  obtain ⟨-, -, -, hcur, -, htrk⟩ := sampleRegs_tail (codeWidth s.adu) d adj s.unconsumed s.adu
  obtain ⟨hbit, hptr⟩ := sampleRegs_endsByte _ d adj s.unconsumed s.adu h8
  have hbits := unconsumed_lt s h.adu.cur_lt
  rw [show 8 - s.adu.bitpos = codeWidth s.adu by omega] at hbits
  rw [State.sampled, hregs]
  obtain ⟨hmode, hdone, -⟩ := emitSample_ended _ s ((runEnded_iff htrk).2 ⟨hbit, hptr.trans hlast⟩)
  exact
    { mode := hmode
      done := hdone
      bptr := by simpa [hptr, htrk] using hlast
      bitpos := by simp [hbit]
      cur := by simp [hcur, shiftRight_eq_zero_of_lt hbits] }

/-- Any other code leaves the run at its next boundary (R192). -/
theorem sampled_goesOn (h : s.RunsAlone)
    (hn : ¬ (s.adu.bitpos + codeWidth s.adu = 8 ∧ s.adu.bptr + 1 = s.trkLen[s.adu.atrk])) : s.sampled.RunsAlone := by
  obtain ⟨d, adj, hregs⟩ := nextAdu_eq_sampleRegs Config.tables s.unconsumed s.adu
  obtain ⟨-, -, -, -, -, htrk⟩ := sampleRegs_tail (codeWidth s.adu) d adj s.unconsumed s.adu
  have hinv := sampleRegs_inv d adj s.unconsumed s.adu h.adu (unconsumed_lt s h.adu.cur_lt)
    (by rw [← h.bptr_succ]; exact BitVec.isLt _)
  have hgo : runEnded (sampleRegs (codeWidth s.adu) d adj s.unconsumed s.adu) s = false := by
    rw [← Bool.not_eq_true, runEnded_iff htrk]
    rintro ⟨hbit, hptr⟩
    by_cases h8 : s.adu.bitpos + codeWidth s.adu = 8
    · exact hn ⟨h8, (sampleRegs_endsByte _ d adj _ _ h8).2.symm.trans hptr⟩
    · have hstay := (sampleRegs_insideByte _ d adj s.unconsumed s.adu h8).1
      have hwidth := (codeWidth_fits s.adu h.adu.bitpos_mem).1
      omega
  rw [State.sampled, hregs]
  have hmode := (emitSample_goesOn _ s hgo).1.trans h.mode
  exact
    { mode := hmode
      pending := by simp [h.pending]
      adu := by simpa using hinv
      run := emitSample_runInv h.run htrk (sampleRegs_bptr_lt _ d adj _ s h.run) hmode }

/-- A sample step ends the run or leaves it at its next boundary. -/
theorem sampled_over_or_goesOn (h : s.RunsAlone) : s.sampled.RunOver ∨ s.sampled.RunsAlone := by
  by_cases hlast : s.adu.bitpos + codeWidth s.adu = 8 ∧ s.adu.bptr + 1 = s.trkLen[s.adu.atrk]
  · exact .inl (h.sampled_over hlast.1 hlast.2)
  · exact .inr (h.sampled_goesOn hlast)

end State.RunsAlone

/-! ### Every run ends -/

/-- The number of bits of the track that are consumed. -/
def Adu.bitIndex (a : Adu) : Nat := 8 * a.bptr.toNat + a.bitpos

/-- A sample step consumes the bits of its code (R167). -/
theorem State.RunsAlone.sampled_bitIndex {s : State} (h : s.RunsAlone) :
    s.sampled.adu.bitIndex = s.adu.bitIndex + codeWidth s.adu := by
  obtain ⟨d, adj, hregs⟩ := nextAdu_eq_sampleRegs Config.tables s.unconsumed s.adu
  rw [State.sampled, emitSample_adu, hregs]
  exact sampleRegs_position _ d adj s.unconsumed s.adu (by rw [← h.bptr_succ]; exact BitVec.isLt _)

/-- At the end all bits are consumed. -/
theorem State.RunOver.bitIndex_eq {s : State} (h : s.RunOver) :
    s.adu.bitIndex = 8 * s.trkLen[s.adu.atrk].toNat := by
  rw [Adu.bitIndex, h.bptr, h.bitpos, Nat.add_zero]

/-- From each boundary the run ends, with two to four bits consumed for each sample (R190, R307): by induction on a bound
of the bits left. -/
theorem State.RunsAlone.ends (m : Nat) : ∀ {s : State}, s.RunsAlone →
    8 * s.trkLen[s.adu.atrk].toNat ≤ s.adu.bitIndex + m →
    ∃ xs t, Emitted s xs t ∧ t.RunOver ∧ s.adu.bitIndex + 2 * xs.length ≤ t.adu.bitIndex ∧
      t.adu.bitIndex ≤ s.adu.bitIndex + 4 * xs.length := by
  induction m with
  | zero =>
    intro s h hm
    have hlt := h.run.bptr_lt
    have hfits := codeWidth_fits s.adu h.adu.bitpos_mem
    unfold Adu.bitIndex at hm
    omega
  | succ m ih =>
    intro s h hm
    have hwidth := (codeWidth_fits s.adu h.adu.bitpos_mem).1
    have hpos := h.sampled_bitIndex
    have hstep := h.emitted
    obtain hover | hrun := h.sampled_over_or_goesOn
    · refine ⟨_, _, hstep, hover, ?_⟩
      rw [List.length_singleton]
      omega
    · have hlen : s.sampled.trkLen[s.sampled.adu.atrk] = s.trkLen[s.adu.atrk] := by simp [hstep.trkLen, hstep.atrk]
      obtain ⟨xs, t, hrest, hover, hlow, hhigh⟩ := ih hrun (by rw [hlen]; omega)
      refine ⟨_, t, hstep.trans hrest, hover, ?_⟩
      rw [List.length_append, List.length_singleton]
      omega

/-- Settles O55: the invariant gives a run that the host leaves alone, and at its end the whole track is consumed. -/
theorem runsEnd : Obligations.RunsEnd := by
  intro s hi hm hp
  have hrun : s.RunsAlone := ⟨hm, hp, hi.adu, hi.run hm⟩
  obtain ⟨xs, t, hemit, hover, hlow, hhigh⟩ := hrun.ends _ (Nat.le_add_left _ _)
  have htrk : t.trkLen[t.adu.atrk] = s.trkLen[s.adu.atrk] := by simp [hemit.trkLen, hemit.atrk]
  have hend := hover.bitIndex_eq
  rw [htrk] at hend
  unfold Adu.bitIndex at hend hlow hhigh
  exact ⟨xs.length, t, by omega, by omega, hemit.run, hover.mode, hover.done, hemit.nout, hover.bptr.trans htrk,
    hover.bitpos, hover.cur⟩

end Sys2Proof.Machine

/-! A run computes the function `decode` (R193): the codes, the bytes, the track, and the start. -/

namespace Sys2Proof.Machine

/-! ### One code -/

/-- The function's variables in the codec registers. -/
def Adu.vars (a : Adu) : CodecVars := { pred := a.pred, sidx := a.sidx, diff := a.diff }

/-- The function emits the machine's sample (R166). -/
theorem vars_sample (a : Adu) : a.vars.sample = sampleOf a.pred := by
  apply BitVec.eq_of_toNat_eq
  have h := sampleOf_toNat a.pred
  simp only [CodecVars.sample, Adu.vars, BitVec.toNat_ofInt]
  omega

/-- The variables after a sample step are those after the clamps and the sum of R193. -/
theorem sampleRegs_vars (w : Nat) (d adj : Int) (b : Byte) (a : Adu) :
    (sampleRegs w d adj b a).vars = a.vars.after d (a.sidx + adj) := by
  obtain ⟨hpred, hsidx, hdiff, -, -, -⟩ := sampleRegs_tail w d adj b a
  simp only [Adu.vars, CodecVars.after, hpred, hsidx, hdiff, clamp_eq_max_min _ _ _ (by decide : (-2048 : Int) ≤ 2047),
    clamp_eq_max_min _ _ _ (by decide : (0 : Int) ≤ 79)]

/-- A bit of a code tested by a mask. -/
theorem and_mask_ne_zero_iff {n : Nat} (c : BitVec n) (i : Nat) : c.toNat &&& 2 ^ i ≠ 0 ↔ c.getLsbD i = true := by
  rw [Nat.and_two_pow, BitVec.getLsbD]
  cases c.toNat.testBit i <;> simp

/-- The function's body for a 2-bit code has the machine's delta and adjustment (R164). -/
theorem code2_toNat (T : Config.Tables) (v : CodecVars) (c : BitVec 2) :
    v.code2 T c.toNat = v.after (delta2 c (stepSize T v.sidx)) (v.sidx + adjust2 c) := by
  have h0 := and_mask_ne_zero_iff c 0
  have h1 := and_mask_ne_zero_iff c 1
  norm_num only at h0 h1
  simp only [CodecVars.code2, delta2, adjust2, stepSize, h0, h1, Nat.shiftRight_eq_div_pow, Config.idx2]
  congr 1
  cases c.getLsbD 0 <;> simp

/-- The function's body for a 4-bit code has the machine's delta and adjustment (R165). -/
theorem code4_toNat (T : Config.Tables) (v : CodecVars) (c : BitVec 4) :
    v.code4 T c.toNat = v.after (delta4 c (stepSize T v.sidx)) (v.sidx + adjust4 T c) := by
  have h0 := and_mask_ne_zero_iff c 0
  have h1 := and_mask_ne_zero_iff c 1
  have h2 := and_mask_ne_zero_iff c 2
  have h3 := and_mask_ne_zero_iff c 3
  norm_num only at h0 h1 h2 h3
  simp only [CodecVars.code4, delta4, adjust4, stepSize, h0, h1, h2, h3, Nat.shiftRight_eq_div_pow]
  congr 1
  cases c.getLsbD 0 <;> cases c.getLsbD 1 <;> cases c.getLsbD 2 <;> simp

/-- The low bits of a byte by a mask, as R193 takes a code. -/
theorem toNat_and_mask (b : Byte) (w : Nat) : b.toNat &&& (2 ^ w - 1) = (b.extractLsb' 0 w).toNat := by
  rw [Nat.and_two_pow_sub_one_eq_mod, BitVec.extractLsb'_toNat, Nat.shiftRight_zero]

/-- The variables after a sample step of a run, by the width of its code (R193). -/
theorem nextAdu_vars (T : Config.Tables) (b : Byte) (a : Adu) :
    (nextAdu T b a).vars =
      if codeWidth a = 2 then a.vars.code2 T (b.toNat &&& 3) else a.vars.code4 T (b.toNat &&& 15) := by
  unfold nextAdu
  split
  · rw [sampleRegs_vars, show 3 = 2 ^ 2 - 1 from rfl, toNat_and_mask, code2_toNat, Adu.vars]
  · rw [sampleRegs_vars, show 15 = 2 ^ 4 - 1 from rfl, toNat_and_mask, code4_toNat, Adu.vars]

/-! ### One byte -/

/-- The inner loop ends with the byte. -/
theorem decodeByte_done (T : Config.Tables) (fuel cur : Nat) {pos : Nat} (v : CodecVars) (h : 8 ≤ pos) :
    decodeByte T fuel cur pos v = ([], v) := by
  cases fuel with
  | zero => rfl
  | succ fuel => exact if_neg (Nat.not_lt.2 h)

/-- One turn of the inner loop is one sample step's registers. -/
theorem decodeByte_succ (T : Config.Tables) (fuel : Nat) (b : Byte) (a : Adu) (h : a.bitpos < 8) :
    decodeByte T (fuel + 1) b.toNat a.bitpos a.vars =
      let r := decodeByte T fuel (b >>> codeWidth a).toNat (a.bitpos + codeWidth a) (nextAdu T b a).vars
      (sampleOf (nextAdu T b a).pred :: r.1, r.2) := by
  rw [← vars_sample, nextAdu_vars, decodeByte, if_pos h]
  by_cases hw : codeWidth a = 2
  · have hn := (codeWidth_eq_two_iff a).1 hw
    simp [hw, hn, Adu.vars, BitVec.toNat_ushiftRight]
  · have hn := mt (codeWidth_eq_two_iff a).2 hw
    simp [codeWidth_eq_four hw, hn, Adu.vars, BitVec.toNat_ushiftRight]

namespace State.RunsAlone

/-- The steps of a run on the rest of a byte are the inner loop of R193, by induction on the turns it may take. -/
theorem decodesByte (fuel : Nat) : ∀ {s : State}, s.RunsAlone → 8 ≤ s.adu.bitpos + 2 * fuel →
    ∃ t, Emitted s (decodeByte Config.tables fuel s.unconsumed.toNat s.adu.bitpos s.adu.vars).1 t ∧
      t.adu.vars = (decodeByte Config.tables fuel s.unconsumed.toNat s.adu.bitpos s.adu.vars).2 ∧
      t.adu.bitpos = 0 ∧ t.adu.bptr = s.adu.bptr + 1 ∧ (t.RunOver ∨ t.RunsAlone) := by
  induction fuel with
  | zero =>
    intro s h hfuel
    have := codeWidth_fits s.adu h.adu.bitpos_mem
    omega
  | succ fuel ih =>
    intro s h hfuel
    obtain ⟨hwidth, hfits⟩ := codeWidth_fits s.adu h.adu.bitpos_mem
    obtain ⟨d, adj, hregs⟩ := nextAdu_eq_sampleRegs Config.tables s.unconsumed s.adu
    have hadu : s.sampled.adu = nextAdu Config.tables s.unconsumed s.adu := emitSample_adu _ s
    rw [decodeByte_succ _ _ _ _ (by omega), ← hadu]
    by_cases h8 : s.adu.bitpos + codeWidth s.adu = 8
    · obtain ⟨hbit, hptr⟩ := sampleRegs_endsByte _ d adj s.unconsumed s.adu h8
      rw [← hregs, ← hadu] at hbit hptr
      rw [decodeByte_done _ _ _ _ h8.ge]
      exact ⟨_, h.emitted, rfl, hbit, hptr, h.sampled_over_or_goesOn⟩
    · obtain ⟨hbit, hptr⟩ := sampleRegs_insideByte _ d adj s.unconsumed s.adu h8
      obtain ⟨-, -, -, hcur, -, -⟩ := sampleRegs_tail (codeWidth s.adu) d adj s.unconsumed s.adu
      rw [← hregs, ← hadu] at hbit hptr hcur
      have hunc : s.sampled.unconsumed = s.unconsumed >>> codeWidth s.adu := by
        rw [State.unconsumed, if_neg (by omega), hcur]
      obtain ⟨t, hemit, hvars, hbit', hptr', hend⟩ := ih (h.sampled_goesOn fun hn => h8 hn.1) (by omega)
      rw [hunc, hbit] at hemit hvars
      exact ⟨t, h.emitted.trans hemit, hvars, hbit', hptr'.trans (by rw [hptr]), hend⟩

end State.RunsAlone

/-! ### The track -/

theorem sourceBytes_length (m : Memory) (base len : Nat) : (sourceBytes m base len).length = len := by
  simp [sourceBytes]

theorem sourceBytes_succ (m : Memory) (base len : Nat) :
    sourceBytes m base (len + 1) = m.read base :: sourceBytes m (base + 1) len := by
  simp [sourceBytes, List.range_succ_eq_map, Nat.add_assoc, Nat.add_comm 1, Function.comp_def]

/-- The bytes of the track from the current one on. -/
def State.bytesLeft (s : State) : List Byte :=
  sourceBytes s.src (trackAddr s) (s.trkLen[s.adu.atrk].toNat - s.adu.bptr.toNat)

/-- At the boundary of a byte its bits are the first byte left, and behind it are the bytes left with the next one. -/
theorem State.RunsAlone.bytesLeft_eq_cons {s t : State} {xs : List Half} (h : s.RunsAlone) (h0 : s.adu.bitpos = 0)
    (he : Emitted s xs t) (hptr : t.adu.bptr = s.adu.bptr + 1) : s.bytesLeft = s.unconsumed :: t.bytesLeft := by
  have hlt := h.run.bptr_lt
  have hlen : t.trkLen[t.adu.atrk] = s.trkLen[s.adu.atrk] := by simp [he.trkLen, he.atrk]
  have haddr : trackAddr t = trackAddr s + 1 := by
    rw [trackAddr, hptr, h.bptr_succ, ← Nat.add_assoc]
    simp only [he.trkBase, he.atrk, trackAddr]
  rw [State.bytesLeft, State.bytesLeft, haddr, he.src, hlen, hptr, h.bptr_succ, State.unconsumed, if_pos h0,
    show s.trkLen[s.adu.atrk].toNat - s.adu.bptr.toNat = s.trkLen[s.adu.atrk].toNat - (s.adu.bptr.toNat + 1) + 1 by omega,
    sourceBytes_succ, trackAddr]

/-- At the end no byte is left. -/
theorem State.RunOver.bytesLeft_eq_nil {s : State} (h : s.RunOver) : s.bytesLeft = [] := by
  rw [State.bytesLeft, h.bptr, Nat.sub_self]
  rfl

/-- A run from the boundary of a byte on is the outer loop of R193 on the bytes left. -/
theorem State.RunsAlone.decodesTrack (bytes : List Byte) : ∀ {s : State}, s.RunsAlone → s.adu.bitpos = 0 →
    s.bytesLeft = bytes →
    ∃ t, Emitted s (decodeTrack Config.tables bytes s.adu.vars).1 t ∧
      t.adu.vars = (decodeTrack Config.tables bytes s.adu.vars).2 ∧ t.RunOver := by
  induction bytes with
  | nil =>
    intro s h _ hbytes
    have hlen := congrArg List.length hbytes
    rw [State.bytesLeft, sourceBytes_length, List.length_nil] at hlen
    have := h.run.bptr_lt
    omega
  | cons b rest ih =>
    intro s h h0 hbytes
    obtain ⟨t, hemit, hvars, hbit, hptr, hend⟩ := h.decodesByte 4 (Nat.le_add_left _ _)
    obtain ⟨hb, hrest⟩ := List.cons.inj ((h.bytesLeft_eq_cons h0 hemit hptr).symm.trans hbytes)
    rw [hb, h0] at hemit hvars
    rw [decodeTrack, ← hvars]
    obtain hover | hrun := hend
    · obtain rfl : [] = rest := hover.bytesLeft_eq_nil.symm.trans hrest
      exact ⟨t, by simpa [decodeTrack] using hemit, rfl, hover⟩
    · obtain ⟨u, hemit', hvars', hover⟩ := ih hrun hbit hrest
      exact ⟨u, hemit.trans hemit', hvars', hover⟩

/-! ### The start -/

/-- The word of `ADU_START` has its opcode and its operands (R97). -/
theorem decode_startWord {k s0 : Nat} (hk : k < 256) (hs0 : s0 < 256) :
    decode (.cw (Claims.startWord k s0)) = .ok (.aduStart k s0) := by
  have hword : (Claims.startWord k s0).toNat = 0x01000000 + 256 * s0 + k := by
    rw [Claims.startWord, BitVec.toNat_ofNat]
    omega
  have hopc : Claims.opc (Claims.startWord k s0) = 0x01 := by rw [Claims.opc, hword]; omega
  rw [(opcodeSelectsInstruction.1 _).2.1 hopc, hword, show (0x01000000 + 256 * s0 + k) % 2 ^ 8 = k by omega,
    show (0x01000000 + 256 * s0 + k) / 2 ^ 8 % 2 ^ 8 = s0 by omega]

/-- A start with legal operands of a track inside the source is accepted (R234). -/
theorem aduStart_accepted {k : Fin 5} {s0 : Nat} {s : State} (hs0 : s0 ≤ 79) (hk : trackOutside k s = false) :
    aduStart k s0 s = acceptStart k s0 s := by
  rw [aduStart, dif_pos k.isLt, if_neg (Nat.not_lt.2 hs0), hk]
  exact if_neg Bool.false_ne_true

/-- The state after the accepted start. -/
def started (s : State) (k : Fin 5) (s0 : Nat) : State := acceptStart k s0 { s with pending := [] }

section

variable {s : State} {k : Fin 5} {s0 : Nat}

/-- The command is performed and accepted. -/
theorem step_start (h : Claims.AboutToStart s k s0) : step s = .next (started s k s0) := by
  have hs0 := h.sidx_le
  have hout : trackOutside k { s with pending := [] } = false := by
    simpa [trackOutside, Decidable.or_iff_not_imp_left] using h.inside
  rw [step_command s _ [] _ h.mode h.pending (decode_startWord (by omega) (by omega))]
  exact congrArg Host.Outcome.next ((unlessFaulted_free { s with pending := [] } _ h.no_fault).trans
    (aduStart_accepted hs0 hout))

@[simp] theorem started_adu : (started s k s0).adu = startAdu k s0 := by
  unfold started acceptStart; simp only; split <;> rfl

@[simp] theorem started_trkBase : (started s k s0).trkBase = s.trkBase := by
  unfold started acceptStart; simp only; split <;> rfl

@[simp] theorem started_trkLen : (started s k s0).trkLen = s.trkLen := by
  unfold started acceptStart; simp only; split <;> rfl

@[simp] theorem started_out : (started s k s0).out = s.out := acceptStart_out _ _ _

@[simp] theorem started_src : (started s k s0).src = s.src := acceptStart_src _ _ _

@[simp] theorem started_pending : (started s k s0).pending = [] := by
  unfold started acceptStart; simp only; split <;> rfl

/-- An absent track is over with the command (R234). -/
theorem started_absent (h : Claims.AboutToStart s k s0) (hlen : s.trkLen[k] = 0) : (started s k s0).RunOver := by
  have hstart : started s k s0 = startEmpty { s with pending := [], adu := startAdu k s0 } := if_pos hlen
  rw [hstart]
  exact ⟨h.mode, rfl, hlen.symm, rfl, rfl⟩

/-- A present track begins a run (R234). -/
theorem started_present (h : Claims.AboutToStart s k s0) (hlen : s.trkLen[k] ≠ 0) : (started s k s0).RunsAlone := by
  have hstart : started s k s0 = startRun { s with pending := [], adu := startAdu k s0 } := if_neg hlen
  rw [hstart]
  exact
    { mode := rfl
      pending := rfl
      adu := startAdu_inv k s0 h.sidx_le
      run :=
        { bptr_lt := Nat.pos_of_ne_zero fun e => hlen (BitVec.eq_of_toNat_eq e)
          inside := h.inside hlen
          not_done := rfl
          not_empty := rfl
          no_fault := h.no_fault } }

/-- At the start all bytes of the track are left. -/
theorem started_bytesLeft : (started s k s0).bytesLeft = Claims.trackBytes s k := by
  simp [State.bytesLeft, Claims.trackBytes, trackAddr, startAdu]

/-- The run of a started track, absent or present, is the outer loop of R193 on its bytes. -/
theorem started_decodesTrack (h : Claims.AboutToStart s k s0) :
    ∃ t, Emitted (started s k s0) (decodeTrack Config.tables (Claims.trackBytes s k) ⟨0, s0, 0⟩).1 t ∧
      t.adu.vars = (decodeTrack Config.tables (Claims.trackBytes s k) ⟨0, s0, 0⟩).2 ∧ t.RunOver := by
  have hvars : (started s k s0).adu.vars = ⟨0, s0, 0⟩ := by rw [started_adu]; rfl
  by_cases hlen : s.trkLen[k] = 0
  · have hover := started_absent h hlen
    rw [← started_bytesLeft (s0 := s0), hover.bytesLeft_eq_nil]
    exact ⟨_, ⟨rfl, by simp [decodeTrack], rfl, rfl, rfl, rfl, rfl, rfl⟩, hvars, hover⟩
  · have hrun := started_present h hlen
    rw [← hvars]
    exact hrun.decodesTrack _ (by rw [started_adu]; rfl) started_bytesLeft

end

/-- Settles O54: the command takes one step, and the run behind it is the function on the track's bytes. -/
theorem runComputesDecode : Obligations.RunComputesDecode := by
  intro s k s0 h
  obtain ⟨t, hemit, hvars, hover⟩ := started_decodesTrack h
  refine ⟨t, ?_, by simpa using hemit.out, congrArg CodecVars.pred hvars, congrArg CodecVars.sidx hvars,
    congrArg CodecVars.diff hvars, by simpa [startAdu] using hemit.nout, hover.mode, hover.done,
    by simpa using hemit.pending⟩
  rw [Nat.add_comm, run_succ_next _ s _ (step_start h)]
  exact hemit.run

/-! ### A track of zero bytes -/

/-- The first step size is 7 in every table the spec allows (R44). -/
theorem stepTable_zero (T : Config.Tables) : T.stepTable.getD 0 0 = 7 := by
  rw [List.getD_eq_getElem?_getD, ← List.head?_eq_getElem?, T.stepTable_first]
  rfl

/-- A zero code from step index 0 leaves the variables at 0: its delta is `7 >> 3` (R195). -/
theorem code2_zero (T : Config.Tables) : CodecVars.code2 T ⟨0, 0, 0⟩ 0 = ⟨0, 0, 0⟩ := by
  simp [CodecVars.code2, CodecVars.after, stepTable_zero, List.getD_cons_zero, -List.getD_eq_getElem?_getD]

/-- A zero byte from step index 0 is four zero samples. -/
theorem decodeByte_zero (T : Config.Tables) :
    decodeByte T 4 0 0 ⟨0, 0, 0⟩ = (List.replicate 4 0, ⟨0, 0, 0⟩) := by
  simp [decodeByte, code2_zero, CodecVars.sample]

/-- Zero bytes from step index 0 are four zero samples each, and leave the variables at 0 (R195). -/
theorem decodeTrack_zeros (T : Config.Tables) (n : Nat) :
    decodeTrack T (List.replicate n 0) ⟨0, 0, 0⟩ = (List.replicate (4 * n) 0, ⟨0, 0, 0⟩) := by
  induction n with
  | zero => rfl
  | succ n ih =>
    have hbyte : decodeByte T 4 (0 : Byte).toNat 0 ⟨0, 0, 0⟩ = (List.replicate 4 0, ⟨0, 0, 0⟩) := decodeByte_zero T
    rw [List.replicate_succ, decodeTrack, hbyte]
    simp only [ih, List.replicate_append_replicate, Nat.mul_succ, Nat.add_comm]

/-- Settles O58: the run is the function, whose value on zero bytes is known. -/
theorem zeroTrackIsSilent : Obligations.ZeroTrackIsSilent := by
  intro s k h hzero
  have hbytes : Claims.trackBytes s k = List.replicate s.trkLen[k].toNat 0 :=
    List.eq_replicate_iff.2 ⟨sourceBytes_length _ _ _, hzero⟩
  obtain ⟨t, hrun, hout, hpred, hsidx, hdiff, -, hmode, hdone, -⟩ := runComputesDecode s k 0 h
  rw [hbytes, decodeTrack_zeros] at hrun hout hpred hsidx hdiff
  rw [List.length_replicate] at hrun
  exact ⟨t, hrun, hout, hpred, hsidx, hdiff, hmode, hdone⟩

end Sys2Proof.Machine

/-! Pairs of runs: what the samples of a run do not depend on (R191, R194). -/

namespace Sys2Proof.Machine

/-! ### Simulation -/

/-- A relation that each step of the left machine carries over to a step of the right one is carried over by any number
of steps. -/
theorem run_simulates {R : State → State → Prop}
    (hstep : ∀ s u t, R s u → step s = .next t → ∃ v, step u = .next v ∧ R t v) (n : Nat) :
    ∀ {s u t : State}, R s u → Sys2Proof.core.run n s = .next t → ∃ v, Sys2Proof.core.run n u = .next v ∧ R t v := by
  induction n with
  | zero =>
    intro s u t hR hrun
    obtain rfl : s = t := Host.Outcome.next.inj hrun
    exact ⟨u, rfl, hR⟩
  | succ n ih =>
    intro s u t hR hrun
    obtain ⟨s', hs, hrest⟩ := run_succ_inv n s t hrun
    obtain ⟨u', hu, hR'⟩ := hstep s u s' hR hs
    rw [run_succ_next n u u' hu]
    exact ih hR' hrest

/-- In `IDLE` with nothing for the host to do a step changes nothing (R281). -/
theorem step_resting {s : State} (hm : s.mode = .idle) (hp : s.pending = []) : step s = .next s := by
  rw [step_nothingPending s hp, blockStep_idle s hm]

/-! ### The track index -/

/-- The registers after a sample step do not depend on `ATRK`, which is kept. -/
theorem sampleRegs_withTrack (w : Nat) (d adj : Int) (b : Byte) (a : Adu) (k : Fin 5) :
    sampleRegs w d adj b { a with atrk := k } = { sampleRegs w d adj b a with atrk := k } := by
  by_cases h : a.bitpos + w = 8 <;> simp [sampleRegs, advance, codecTail, consume, h]

/-- So do those of the selected code, which `ATRK` has no part in selecting. -/
theorem nextAdu_withTrack (T : Config.Tables) (b : Byte) (a : Adu) (k : Fin 5) :
    nextAdu T b { a with atrk := k } = { nextAdu T b a with atrk := k } := by
  have hwidth : codeWidth { a with atrk := k } = codeWidth a := rfl
  by_cases h : codeWidth a = 2 <;> simp only [nextAdu, hwidth, h, if_true, if_false, sampleRegs_withTrack]

/-- The byte a run fetches is the track's byte at `BPTR` (R26, R162). -/
theorem State.RunsAlone.unconsumed_eq {s : State} (h : s.RunsAlone) :
    s.unconsumed =
      if s.adu.bitpos = 0 then (Claims.trackBytes s s.adu.atrk).getD s.adu.bptr.toNat 0 else s.adu.cur := by
  have hlt := h.run.bptr_lt
  rw [State.unconsumed, Claims.trackBytes, sourceBytes, List.getD_eq_getElem _ _ (by simpa using hlt), List.getElem_map,
    List.getElem_range]

/-- Tracks with the same bytes have the same length. -/
theorem trkLen_eq_of_trackBytes {s u : State} {k l : Fin 5} (h : Claims.trackBytes s k = Claims.trackBytes u l) :
    s.trkLen[k] = u.trkLen[l] := by
  have hlen := congrArg List.length h
  simp only [Claims.trackBytes, sourceBytes_length] at hlen
  exact BitVec.eq_of_toNat_eq hlen

/-! ### Two machines that run the same bytes -/

/-- Two machines at the same moment of runs of the same bytes, the left one's in track `k`: both run or both rest, the codec
registers agree, and behind `os` and `ou` they have emitted the same samples. -/
structure InStep (k : Fin 5) (os ou : List Half) (s u : State) : Prop where
  stage : (s.RunsAlone ∧ u.RunsAlone) ∨ (s.mode = .idle ∧ s.pending = []) ∧ u.mode = .idle ∧ u.pending = []
  adu : s.adu = { u.adu with atrk := k }
  bytes : Claims.trackBytes s k = Claims.trackBytes u u.adu.atrk
  out : ∃ e, s.out = os ++ e ∧ u.out = ou ++ e

namespace InStep

variable {k : Fin 5} {os ou : List Half} {s u : State}

/-- Both machines work on the same bits. -/
theorem unconsumed_eq (h : InStep k os ou s u) (hs : s.RunsAlone) (hu : u.RunsAlone) : s.unconsumed = u.unconsumed := by
  rw [hs.unconsumed_eq, hu.unconsumed_eq, h.adu, h.bytes]

/-- After a sample step of both the codec registers agree again. -/
theorem sampled_adu (h : InStep k os ou s u) (hs : s.RunsAlone) (hu : u.RunsAlone) :
    s.sampled.adu = { u.sampled.adu with atrk := k } := by
  rw [State.sampled, State.sampled, emitSample_adu, emitSample_adu, h.unconsumed_eq hs hu, h.adu, nextAdu_withTrack]

/-- A sample step of both ends both runs or none. -/
theorem sampled_stage (h : InStep k os ou s u) (hs : s.RunsAlone) (hu : u.RunsAlone) :
    (s.sampled.RunsAlone ∧ u.sampled.RunsAlone) ∨
      (s.sampled.mode = .idle ∧ s.sampled.pending = []) ∧ u.sampled.mode = .idle ∧ u.sampled.pending = [] := by
  have hend : s.adu.bitpos + codeWidth s.adu = 8 ∧ s.adu.bptr + 1 = s.trkLen[s.adu.atrk] ↔
      u.adu.bitpos + codeWidth u.adu = 8 ∧ u.adu.bptr + 1 = u.trkLen[u.adu.atrk] := by
    simp only [h.adu, codeWidth, trkLen_eq_of_trackBytes h.bytes]
  by_cases hlast : u.adu.bitpos + codeWidth u.adu = 8 ∧ u.adu.bptr + 1 = u.trkLen[u.adu.atrk]
  · obtain ⟨h8, hptr⟩ := hend.2 hlast
    exact .inr ⟨⟨(hs.sampled_over h8 hptr).mode, hs.emitted.pending.trans hs.pending⟩,
      (hu.sampled_over hlast.1 hlast.2).mode, hu.emitted.pending.trans hu.pending⟩
  · exact .inl ⟨hs.sampled_goesOn (mt hend.1 hlast), hu.sampled_goesOn hlast⟩

/-- A sample step of both keeps them in step. -/
theorem sampled (h : InStep k os ou s u) (hs : s.RunsAlone) (hu : u.RunsAlone) : InStep k os ou s.sampled u.sampled where
  stage := h.sampled_stage hs hu
  adu := h.sampled_adu hs hu
  bytes := by
    have es := hs.emitted
    have eu := hu.emitted
    simpa [Claims.trackBytes, es.trkBase, es.trkLen, es.src, eu.trkBase, eu.trkLen, eu.src, eu.atrk] using h.bytes
  out := by
    obtain ⟨e, hos, hou⟩ := h.out
    refine ⟨e ++ [sampleOf s.sampled.adu.pred], ?_, ?_⟩
    · rw [hs.emitted.out, hos, List.append_assoc]
    · rw [hu.emitted.out, hou, List.append_assoc, h.sampled_adu hs hu]

/-- A step of the left machine is a step of both. -/
theorem step {t : State} (h : InStep k os ou s u) (ht : Machine.step s = .next t) :
    ∃ v, Machine.step u = .next v ∧ InStep k os ou t v := by
  obtain ⟨hs, hu⟩ | ⟨⟨hms, hps⟩, hmu, hpu⟩ := h.stage
  · obtain rfl : s.sampled = t := Host.Outcome.next.inj (hs.step_eq.symm.trans ht)
    exact ⟨_, hu.step_eq, h.sampled hs hu⟩
  · obtain rfl : s = t := Host.Outcome.next.inj ((step_resting hms hps).symm.trans ht)
    exact ⟨u, step_resting hmu hpu, h⟩

/-- Two accepted starts of the same bytes with the same step index put the machines in step. -/
theorem ofStarts {l : Fin 5} {s0 : Nat} (hs : Claims.AboutToStart s k s0) (hu : Claims.AboutToStart u l s0)
    (hbytes : Claims.trackBytes s k = Claims.trackBytes u l) :
    InStep k s.out u.out (started s k s0) (started u l s0) where
  stage := by
    have hlen := trkLen_eq_of_trackBytes hbytes
    by_cases h0 : u.trkLen[l] = 0
    · exact .inr ⟨⟨(started_absent hs (hlen.trans h0)).mode, started_pending⟩,
        (started_absent hu h0).mode, started_pending⟩
    · exact .inl ⟨started_present hs (hlen.symm ▸ h0), started_present hu h0⟩
  adu := by simp [startAdu]
  bytes := by simpa [Claims.trackBytes, startAdu] using hbytes
  out := ⟨[], by simp⟩

end InStep

/-- Settles O56: the machines are in step behind their starts, and stay so. -/
theorem runsDependOnTrackOnly : Obligations.RunsDependOnTrackOnly := by
  intro s u k l s0 hs hu hbytes n t v ht hv
  rw [Nat.add_comm, run_succ_next n s _ (step_start hs)] at ht
  rw [Nat.add_comm, run_succ_next n u _ (step_start hu)] at hv
  obtain ⟨v', hv', h⟩ := run_simulates (fun _ _ _ hR => hR.step) n (InStep.ofStarts hs hu hbytes) ht
  obtain rfl : v' = v := Host.Outcome.next.inj (hv'.symm.trans hv)
  refine ⟨?_, h.adu, h.out⟩
  obtain ⟨hs', hu'⟩ | ⟨⟨hms, -⟩, hmu, -⟩ := h.stage
  · rw [hs'.mode, hu'.mode]
  · rw [hms, hmu]

/-! ### Two machines whose predictors differ by a multiple of 4096 -/

/-- With another `PRED` a sample step leaves the same registers, but for `PRED`, which differs by as much. -/
theorem sampleRegs_addPred (w : Nat) (d adj : Int) (b : Byte) (a : Adu) (x : Int) :
    sampleRegs w d adj b { a with pred := a.pred + x } =
      { sampleRegs w d adj b a with pred := (sampleRegs w d adj b a).pred + x } := by
  by_cases h : a.bitpos + w = 8 <;> simp [sampleRegs, advance, codecTail, consume, h, Int.add_right_comm _ x]

/-- So does the selected code, which `PRED` has no part in selecting. -/
theorem nextAdu_addPred (T : Config.Tables) (b : Byte) (a : Adu) (x : Int) :
    nextAdu T b { a with pred := a.pred + x } = { nextAdu T b a with pred := (nextAdu T b a).pred + x } := by
  have hwidth : codeWidth { a with pred := a.pred + x } = codeWidth a := rfl
  by_cases h : codeWidth a = 2 <;> simp only [nextAdu, hwidth, h, if_true, if_false, sampleRegs_addPred]

/-- `s'` is `s` with `PRED` greater by `4096 * z`, but for the boundaries on record, and the host has nothing to do. -/
def PredShifted (z : Int) (s s' : State) : Prop :=
  s.pending = [] ∧ ∃ hist, s' = { Claims.withPred s (s.adu.pred + 4096 * z) with history := hist }

/-- Emitting a sample from shifted registers emits the same sample, since a sample shows `PRED mod 4096` (R194). -/
theorem emitSample_shifted (a : Adu) (z : Int) {s s' : State} (h : PredShifted z s s') :
    PredShifted z (emitSample a s) (emitSample { a with pred := a.pred + 4096 * z } s') := by
  obtain ⟨hp, hist, rfl⟩ := h
  refine ⟨(emitSample_pending a s).trans hp, ?_⟩
  unfold emitSample
  simp only [sampleOf_add_4096]
  cases hend : runEnded a s with
  | true => exact ⟨_, if_pos hend⟩
  | false => exact ⟨_, if_neg (Bool.eq_false_iff.1 hend)⟩

/-- What a shifted state has in common with the state, and what not. -/
theorem PredShifted.fields {z : Int} {s s' : State} (h : PredShifted z s s') :
    s'.mode = s.mode ∧ s'.pending = [] ∧ s'.adu = { s.adu with pred := s.adu.pred + 4096 * z } ∧
      s'.unconsumed = s.unconsumed ∧ (s.ByteAvailable → s'.ByteAvailable) := by
  obtain ⟨hp, hist, rfl⟩ := h
  exact ⟨rfl, hp, rfl, rfl, id⟩

/-- A step keeps the shift. -/
theorem PredShifted.step {z : Int} {s s' t : State} (h : PredShifted z s s') (ht : Machine.step s = .next t) :
    ∃ t', Machine.step s' = .next t' ∧ PredShifted z t t' := by
  obtain ⟨hmode, hpend, hadu, hbits, havail⟩ := h.fields
  cases hm : s.mode with
  | idle =>
    obtain rfl : s = t := Host.Outcome.next.inj ((step_resting hm h.1).symm.trans ht)
    exact ⟨s', step_resting (hmode.trans hm) hpend, h⟩
  | aduRun =>
    rw [step_nothingPending s h.1, blockStep_run s hm] at ht
    obtain ⟨-, -, hb, hs, -, -⟩ := runSample_inv s t ht
    obtain rfl : s.sampled = t := Host.Outcome.next.inj ((runSample_eq_sampled hb hs).symm.trans ht)
    refine ⟨s'.sampled, ?_, ?_⟩
    · rw [step_nothingPending s' hpend, blockStep_run s' (hmode.trans hm)]
      exact runSample_eq_sampled (havail hb) (by rw [hadu]; exact hs)
    · rw [State.sampled, State.sampled, hadu, hbits, nextAdu_addPred]
      exact emitSample_shifted _ z h

/-- Settles O57: the shift is carried through the run. -/
theorem onlyPredMod4096Shows : Obligations.OnlyPredMod4096Shows := by
  intro s z n t hp ht
  have hstart : PredShifted z s (Claims.withPred s (s.adu.pred + 4096 * z)) := ⟨hp, s.history, rfl⟩
  obtain ⟨t', ht', -, hist, rfl⟩ := run_simulates (fun _ _ _ hR => hR.step) n hstart ht
  exact ⟨_, ht', rfl, rfl, rfl⟩

end Sys2Proof.Machine

/-! Commands that the host writes (R231, R233 to R238) and its register writes: `ADU_START`, the fault lock, reserved
opcodes, and what a performed write stores. -/

namespace Sys2Proof.Machine

/-! ### A write to `CMD` in `IDLE` -/

/-- Settles O7: in `IDLE` no write waits, so the command is performed. -/
theorem stepRunsWrittenCommand : Obligations.StepRunsWrittenCommand := fun s w rest i hm hp hd =>
  step_command s w rest i hm hp hd

/-- A word that does not decode is an illegal command (R237). -/
theorem step_illegal {s : State} {w : Word} {rest : List HostAction} (hm : s.mode = .idle) (hp : s.pending = .wr 0 w :: rest)
    (hd : decode (.cw w) = .error (.reservedOpcode w)) : step s = .next (illegalCommand w { s with pending := rest }) := by
  rw [step_performs s _ rest hp (actionWaits_idle _ s hm)]
  simp only [performAction, if_pos, issueCommand, hd]

/-- The opcode a fault records is the opcode byte of the word (R97, R273). -/
theorem opcodeOf_eq_ofNat_opc (w : Word) : opcodeOf w = BitVec.ofNat 8 (Claims.opc w) := by
  rw [Claims.opc, ← opcodeOf_toNat, BitVec.ofNat_toNat, BitVec.setWidth_eq]

/-- With no fault held a reserved opcode raises `IllegalCommand` with the whole word (R237, R269). -/
theorem illegalCommand_free (w : Word) {s : State} (h0 : s.err.code = 0) :
    illegalCommand w s = { s with err := { code := 6, opc := BitVec.ofNat 8 (Claims.opc w), info := w } } := by
  rw [illegalCommand, unlessFaulted_free s _ h0, raiseErr, opcodeOf_eq_ofNat_opc, BitVec.ofNat_toNat, BitVec.setWidth_eq]
  rfl

/-- Settles O8: a reserved opcode does not decode, and the word that does not decode is an illegal command. -/
theorem reservedOpcodeFaults : Obligations.ReservedOpcodeFaults := by
  intro s w rest hm hp h0 hopc
  rw [step_illegal hm hp ((decode_cw_reserved_iff w).1 hopc)]
  exact congrArg Host.Outcome.next (illegalCommand_free w (s := { s with pending := rest }) h0)

/-- With a fault held a word other than a `CLR_ERR` and a `SOFT_RESET` is dropped, whether it decodes or not (R238). -/
theorem step_faultLocked {s : State} {w : Word} {rest : List HostAction} (hm : s.mode = .idle)
    (hp : s.pending = .wr 0 w :: rest) (hheld : s.err.code ≠ 0) (hclr : Claims.opc w ≠ 0x09) (hsoft : Claims.opc w ≠ 0x0A) :
    step s = .next { s with pending := rest } := by
  cases hd : decode (.cw w) with
  | ok i =>
    have hopc := opcode_of_decode_cw hd
    rw [step_command s w rest i hm hp hd]
    refine exec_faultLocked i { s with pending := rest } hheld (sampleParams_of_decode_cw hd) ?_ ?_
    · rintro rfl
      exact hclr (Option.some.inj hopc).symm
    · rintro rfl
      exact hsoft (Option.some.inj hopc).symm
  | error e =>
    obtain rfl := decode_cw_error w e hd
    rw [step_illegal hm hp hd, illegalCommand_held w { s with pending := rest } hheld]

/-- Settles O9: the lock drops a word of another opcode; that a `NOP` is executed under it, which changes nothing, is the
second clause. -/
theorem faultLockDropsCommands : Obligations.FaultLockDropsCommands := fun s w rest hm hp =>
  ⟨fun hheld _ hclr hsoft => step_faultLocked hm hp hheld hclr hsoft, fun _ i hd => step_command s w rest i hm hp hd⟩

/-! ### The system commands -/

/-- Settles O16: the meaning of `NOP` tests no fault and writes nothing. -/
theorem nopChangesNothing : Obligations.NopChangesNothing := fun _ => rfl

/-- Settles O20: the meaning of `CLR_ERR` tests no fault and writes the `ERR` group alone. -/
theorem clearErrorGroup : Obligations.ClearErrorGroup := fun _ => rfl

/-! ### `ADU_START` -/

/-- The range check is of a present track only (R234, R264). -/
theorem trackOutside_eq_false_iff (k : Fin 5) (s : State) :
    trackOutside k s = false ↔ s.trkLen[k] = 0 ∨ s.trkBase[k].toNat + s.trkLen[k].toNat ≤ s.srcSize.toNat := by
  simp [trackOutside, Decidable.or_iff_not_imp_left]

/-- With no fault held a start with legal operands of a track that passes the range check is accepted (R234). -/
theorem exec_aduStart_accepted {k : Fin 5} {s0 : Nat} {s : State} (h0 : s.err.code = 0) (hs0 : s0 ≤ 79)
    (hk : s.trkLen[k] = 0 ∨ s.trkBase[k].toNat + s.trkLen[k].toNat ≤ s.srcSize.toNat) :
    exec (.aduStart k s0) s = .next (acceptStart k s0 s) :=
  congrArg Host.Outcome.next
    ((unlessFaulted_free s _ h0).trans (aduStart_accepted hs0 ((trackOutside_eq_false_iff k s).2 hk)))

/-- An accepted start of an absent track sets `EMPTY` and `DONE` (R234). -/
theorem acceptStart_absent {k : Fin 5} (s0 : Nat) {s : State} (hlen : s.trkLen[k] = 0) :
    acceptStart k s0 s = startEmpty { s with adu := startAdu k s0 } := if_pos hlen

/-- An accepted start of a present track begins the run (R234). -/
theorem acceptStart_present {k : Fin 5} (s0 : Nat) {s : State} (hlen : s.trkLen[k] ≠ 0) :
    acceptStart k s0 s = startRun { s with adu := startAdu k s0 } := if_neg hlen

/-- Settles O17: the start is accepted, and the track is present. -/
theorem startOfPresentTrack : Obligations.StartOfPresentTrack := fun k hk s0 _ h0 hs0 hlen hin =>
  (exec_aduStart_accepted (k := ⟨k, hk⟩) h0 hs0 (.inr hin)).trans (congrArg Host.Outcome.next (acceptStart_present s0 hlen))

/-- Settles O18: the start of an absent track is accepted without a range check. -/
theorem startOfAbsentTrack : Obligations.StartOfAbsentTrack := fun k hk s0 _ h0 hs0 hlen =>
  (exec_aduStart_accepted (k := ⟨k, hk⟩) h0 hs0 (.inl hlen)).trans (congrArg Host.Outcome.next (acceptStart_absent s0 hlen))

/-! ### Register writes -/

/-- In `IDLE` a write to a register other than `CMD` is performed (R231). -/
theorem step_store {s : State} {index : Nat} {v : Word} {rest : List HostAction} (hm : s.mode = .idle)
    (hp : s.pending = .wr index v :: rest) (hcmd : index ≠ 0) :
    step s = .next (storeRegister index v { s with pending := rest }) := by
  rw [step_performs s _ rest hp (actionWaits_idle _ s hm)]
  exact if_neg hcmd

/-- The registers at indices 8 to 12 are `TRK_BASE[0]` to `TRK_BASE[4]` (R42). -/
theorem storeRegister_trkBase (k : Fin 5) (v : Word) (s : State) :
    storeRegister (8 + k.val) v s = { s with trkBase := s.trkBase.set k v } := by
  fin_cases k <;> rfl

/-- The registers at indices 13 to 17 are `TRK_LEN[0]` to `TRK_LEN[4]` (R42). -/
theorem storeRegister_trkLen (k : Fin 5) (v : Word) (s : State) :
    storeRegister (13 + k.val) v s = { s with trkLen := s.trkLen.set k v } := by
  fin_cases k <;> rfl

/-- Settles O40: the write is performed, and each register of the map stores the value in its own place. -/
theorem registerWritesStore : Obligations.RegisterWritesStore := by
  intro s v rest hm
  refine ⟨fun hp => step_store hm hp (by decide), fun hp => step_store hm hp (by decide), fun k hp => ?_, fun k hp => ?_⟩
  · rw [step_store hm hp (by omega), storeRegister_trkBase]
  · rw [step_store hm hp (by omega), storeRegister_trkLen]

end Sys2Proof.Machine

/-! Fault entry (R261 to R273): which commands raise what, in the order of their checks, that a fault is precise, and that the
block in `IDLE` raises nothing by itself (R281). -/

namespace Sys2Proof.Machine

/-! ### Entering a fault with no fault held -/

/-- With no fault held the lock lets a command's fault entry through (R238, R273). -/
theorem next_raised {k : ErrKind} {opc : Byte} {n : Nat} {s s' : State} (h0 : s.err.code = 0) (h : s' = raiseErr k opc n s) :
    (.next (unlessFaulted s s') : Result) =
      .next { s with err := { code := k.code, opc := opc, info := BitVec.ofNat 32 n } } :=
  congrArg Host.Outcome.next ((unlessFaulted_free s s' h0).trans h)

/-- A 32-bit offending value is recorded as it is (R37). -/
theorem next_raised_word {k : ErrKind} {opc : Byte} {v : Word} {s s' : State} (h0 : s.err.code = 0)
    (h : s' = raiseErr k opc v.toNat s) :
    (.next (unlessFaulted s s') : Result) = .next { s with err := { code := k.code, opc := opc, info := v } } := by
  rw [next_raised h0 h, BitVec.ofNat_toNat, BitVec.setWidth_eq]

/-- Settles O22: the entry of `Unimplemented` is the command's whole meaning. -/
theorem layerDecodeUnimplemented : Obligations.LayerDecodeUnimplemented := fun _ h0 => next_raised h0 rfl

/-! ### `ADU_START` -/

/-- The track index is checked first (R262). -/
theorem aduStart_badTrack {k : Nat} (s0 : Nat) (s : State) (hk : 5 ≤ k) :
    aduStart k s0 s = raiseErr .invalidTrackIndex 0x01 k s := dif_neg (Nat.not_lt.2 hk)

/-- The step index is checked next (R263). -/
theorem aduStart_badStep {k s0 : Nat} (s : State) (hk : k < 5) (hs0 : 79 < s0) :
    aduStart k s0 s = raiseErr .invalidStepIndex 0x01 s0 s := by
  rw [aduStart, dif_pos hk]
  exact if_pos hs0

/-- The range of a present track is checked last (R264). -/
theorem aduStart_outside {k : Fin 5} {s0 : Nat} {s : State} (hs0 : s0 ≤ 79) (hk : trackOutside k s = true) :
    aduStart k s0 s = raiseErr .unexpectedEndOfStream 0x01 s.trkBase[k].toNat s := by
  rw [aduStart, dif_pos k.isLt, if_neg (Nat.not_lt.2 hs0)]
  exact if_pos hk

/-- Settles O19: one check of `ADU_START` for each clause. -/
theorem startFaultsInOrder : Obligations.StartFaultsInOrder := by
  intro k s0 s h0
  refine ⟨fun hk => next_raised h0 (aduStart_badTrack s0 s hk),
    fun hk hs0 => next_raised h0 (aduStart_badStep s hk hs0), fun hk hs0 hlen hsize => ?_⟩
  have hout : trackOutside ⟨k, hk⟩ s = true := by
    rw [← Bool.not_eq_false, trackOutside_eq_false_iff]
    exact not_or.2 ⟨hlen, Nat.not_le.2 hsize⟩
  exact next_raised_word h0 (aduStart_outside hs0 hout)

/-! ### `BCU_READ` -/

/-- Settles O26: a bad count, and a refill that the source cannot serve. -/
theorem readFaultsInOrder : Obligations.ReadFaultsInOrder := fun n s h0 =>
  ⟨fun hn => next_raised h0 (bcuRead_badCount n s hn),
    fun h1 h16 hlow hsize => next_raised_word h0 (bcuRead_ended n s h1 h16 hlow (refill_outside s hsize))⟩

/-! ### The lookups -/

/-- With no fault held the lookup of an index outside the table raises `InvalidTableIndex` (R267). -/
theorem next_lookup_illegal {opc : Byte} {len i : Nat} {lo hi : Word} {s : State} (h0 : s.err.code = 0) (hlen : len ≤ i) :
    (.next (unlessFaulted s (lookup opc len i lo hi s)) : Result) =
      .next { s with err := { code := 5, opc := opc, info := BitVec.ofNat 32 i } } :=
  next_raised h0 (lookup_illegal opc len i lo hi s hlen)

/-- Settles O31: each lookup checks its index against the length of its table. -/
theorem tableIndexFaults : Obligations.TableIndexFaults := fun _ _ h0 =>
  ⟨fun hi => ⟨next_lookup_illegal h0 hi, next_lookup_illegal h0 hi⟩,
    fun hi => ⟨next_lookup_illegal h0 hi, next_lookup_illegal h0 hi⟩⟩

/-! ### The block in `IDLE` -/

/-- Settles O45: the step is the block's own, and in `IDLE` that changes nothing. -/
theorem idleBlockDoesNothing : Obligations.IdleBlockDoesNothing := by
  refine fun s hm => ⟨step_resting hm, fun rest hp => ?_⟩
  rw [step_performs s .yield rest hp rfl]
  exact blockStep_idle { s with pending := rest } hm

/-! ### Faults are precise -/

/-- A word of another opcode is not the command (R97). -/
theorem decode_cw_ne {w : Word} {i j : Instr} {o : Nat} (hd : decode (.cw w) = .ok i)
    (hj : Laws.Format.opcode j = some o) (ho : Claims.opc w ≠ o) : i ≠ j := by
  rintro rfl
  exact ho (Option.some.inj ((opcode_of_decode_cw hd).symm.trans hj))

/-- An accepted start raises nothing (R234). -/
@[simp] theorem acceptStart_err (k : Fin 5) (s0 : Nat) (s : State) : (acceptStart k s0 s).err = s.err := by
  unfold acceptStart; simp only; split <;> rfl

/-- A command other than `CLR_ERR` and `SOFT_RESET` that changes the `ERR` group enters a fault with its own opcode, and does
nothing else (R273). -/
theorem exec_command_raised {i : Instr} {s t : State} (hc : sampleParams Config.tables i = none) (h : exec i s = .next t)
    (hclr : i ≠ .clrErr) (hsoft : i ≠ .softReset) (herr : t.err ≠ s.err) :
    s.err.code = 0 ∧ ∃ k o n, Laws.Format.opcode i = some o.toNat ∧ t = raiseErr k o n s := by
  cases exec_effect i s t h with
  | raised h0 k o n hi =>
    refine ⟨h0, k, o, n, ?_, rfl⟩
    obtain ⟨⟨_, _, rfl⟩, rfl⟩ | ⟨⟨_, rfl⟩, rfl⟩ | ⟨⟨_, rfl⟩, rfl⟩ | ⟨⟨_, rfl⟩, rfl⟩ | ⟨⟨_, rfl⟩, rfl⟩ | ⟨⟨_, rfl⟩, rfl⟩ |
      ⟨rfl, rfl⟩ := hi <;> rfl
  | sample w d adj hp => exact nomatch hc.symm.trans hp
  | cleared hi => exact absurd hi hclr
  | softReset hi => exact absurd hi hsoft
  | started => exact absurd (acceptStart_err _ _ s) herr
  | unchanged | bcuInit | read | refilled | looked => exact absurd rfl herr

/-- The opcode such a fault records is the opcode byte of the word that was decoded (R273). -/
theorem exec_decoded_raised {w : Word} {i : Instr} {s t : State} (hd : decode (.cw w) = .ok i) (h : exec i s = .next t)
    (hclr : Claims.opc w ≠ 0x09) (hsoft : Claims.opc w ≠ 0x0A) (herr : t.err ≠ s.err) :
    s.err.code = 0 ∧ ∃ k n, t = raiseErr k (BitVec.ofNat 8 (Claims.opc w)) n s := by
  obtain ⟨h0, k, o, n, hopc, rfl⟩ := exec_command_raised (sampleParams_of_decode_cw hd) h (decode_cw_ne hd rfl hclr)
    (decode_cw_ne hd rfl hsoft) herr
  have ho : o.toNat = Claims.opc w := Option.some.inj (hopc.symm.trans (opcode_of_decode_cw hd))
  exact ⟨h0, k, n, by rw [← ho, BitVec.ofNat_toNat, BitVec.setWidth_eq]⟩

/-- A reserved opcode that changes the `ERR` group raises `IllegalCommand` with that opcode (R237, R273). -/
theorem illegalCommand_raised {w : Word} {s : State} (herr : (illegalCommand w s).err ≠ s.err) :
    s.err.code = 0 ∧
      illegalCommand w s = raiseErr .illegalCommand (BitVec.ofNat 8 (Claims.opc w)) w.toNat s := by
  have h0 : s.err.code = 0 := by
    by_contra hheld
    exact herr (congrArg State.err (illegalCommand_held w s hheld))
  exact ⟨h0, by rw [illegalCommand, unlessFaulted_free s _ h0, opcodeOf_eq_ofNat_opc]⟩

/-- Settles O46: among the effects of a step only a command and a reserved opcode can enter a fault. -/
theorem faultsArePrecise : Obligations.FaultsArePrecise := by
  intro s t h herr hcmd hreset
  cases step_effect s t h with
  | command w p hm hp i hd _ he =>
    obtain ⟨hclr, hsoft⟩ := hcmd w p hp
    obtain ⟨h0, k, n, rfl⟩ := exec_decoded_raised hd he hclr hsoft herr
    exact ⟨hm, h0, w, p, k, n, hp, k.code_ne_zero, rfl⟩
  | illegal w p hm hp =>
    obtain ⟨h0, heq⟩ := illegalCommand_raised (s := { s with pending := p }) herr
    exact ⟨hm, h0, w, p, .illegalCommand, w.toNat, hp, ErrKind.code_ne_zero _, heq⟩
  | sample p _ _ _ hr =>
    obtain ⟨d, adj, -, -, -, rfl⟩ := runSample_inv _ t hr
    exact absurd (emitSample_err _ _) herr
  | store index v p =>
    rw [storeRegister_frame] at herr
    exact absurd rfl herr
  | read index p =>
    rw [hostRead_frame] at herr
    exact absurd rfl herr
  | idle | put => exact absurd rfl herr
  | hardReset p hp => exact absurd hp (hreset p)

end Sys2Proof.Machine

/-! The reset input (R300, R301): unlike a write it never waits for the end of a run, and performed it leaves nothing of the
block's own state, `OUT` included. -/

namespace Sys2Proof.Machine

/-- The reset input waits in no mode, so a run is aborted (R300, R308). -/
@[simp] theorem actionWaits_hardReset (s : State) : actionWaits .hardReset s = false := rfl

/-- With an empty output stream the reset block is the state after reset, but for the host's side (R301). -/
theorem resetBlock_nil (s : State) :
    resetBlock [] s =
      { State.reset with src := s.src, pending := s.pending, reads := s.reads, mirrorReads := s.mirrorReads } := rfl

/-- Settles O44: the reset input is performed in either mode, and performing it resets the block with an empty `OUT`. -/
theorem hardResetInEitherMode : Obligations.HardResetInEitherMode := by
  intro s rest hp
  rw [step_performs s .hardReset rest hp (actionWaits_hardReset s)]
  exact congrArg Host.Outcome.next (resetBlock_nil { s with pending := rest })

end Sys2Proof.Machine
